-- ==== Sys2Proof/Word.lean ====
section
/-! DEFINITION. The data a register, a cell and a token hold (spec/00_scope.md R9, R13; spec/20_memory.md R40). -/

namespace Sys2Proof

/-- A register value and an ALU result: 32-bit two's complement (R8 `WORD_BITS`, R9).
The spec's `Word` is the set of integers -2^31 .. 2^31-1; the member a `Word` stands for is
`BitVec.toInt` of it, and every rule of the model reads it through `toInt`.
DEDUCED (notes/assumptions/1.md): safe. -/
abbrev Word := BitVec 32

/-- A piece of text: a finite sequence of characters, compared exactly (R13).
DESIGN CHOICE (notes/assumptions/5.md): a character is a Unicode scalar value; unsafe. -/
abbrev Token := List Char

/-- The index of a general register, 0 .. 31 (R8 `NUM_REGS`, R20). -/
abbrev RegIdx := Fin 32

/-- What one memory location holds: an integer word or a text record (R40).
The hardware has no bytes (R42), so a cell is moved whole and has no byte layout (DEDUCED, notes/assumptions/4.md: safe). -/
inductive Cell where
  | int (w : Word)
  | text (s : Token)
  deriving DecidableEq, Repr

/-- `bits[hi:lo]` of R9, as an integer.  R9 gives it for completeness and no rule uses it. -/
def Word.bits (w : Word) (hi lo : Nat) : Int :=
  w.toInt % 2 ^ 32 / 2 ^ lo % 2 ^ (hi - lo + 1)

/-- `zext_N` of R9: the low `n` bits read as unsigned.  No rule uses it. -/
def Word.zext (n : Nat) (w : Word) : Int :=
  w.toInt % 2 ^ n

/-- `sext_N` of R9: the low `n` bits read as two's complement.  No rule uses it. -/
def Word.sext (n : Nat) (w : Word) : Int :=
  w.toInt.bmod (2 ^ n)

end Sys2Proof
end

