-- ==== Sys2Proof/Machine/Text.lean ====
section
/-! DEFINITION. Text: `show`, `split` and the two operand grammars (spec/00_scope.md R13; spec/30_encoding.md R74, R79, R80). -/

namespace Sys2Proof.Machine

/-- The decimal digit `d`, for `d < 10`. -/
def digitChar (d : Nat) : Char := Char.ofNat (48 + d)

/-- The value of a decimal digit. -/
def digitValue (c : Char) : Nat := c.toNat - 48

/-- The last `fuel` decimal digits of `n`, none of them a leading zero. -/
def showDigits : Nat → Nat → Token
  | 0, _ => []
  | fuel + 1, n => if n < 10 then [digitChar n] else showDigits fuel (n / 10) ++ [digitChar (n % 10)]

/-- `show` on the naturals (R13): no leading zeros, `0` for zero. -/
def showNat (n : Nat) : Token := showDigits (n + 1) n

/-- `show` (R13): the decimal rendering of an integer, with a leading `-` when negative. -/
def showInt (n : Int) : Token :=
  if n < 0 then '-' :: showNat n.natAbs else showNat n.natAbs

/-- `split(s, ",")` (R13, R74): cut at every comma, keeping empty pieces, trimming nothing. -/
def splitCommas : Token → List Token
  | [] => [[]]
  | c :: cs =>
    if c = ',' then [] :: splitCommas cs
    else
      match splitCommas cs with
      | [] => [[c]]
      | t :: ts => (c :: t) :: ts

/-- Tokens put together with a comma between neighbours: the record a split cuts (R84). -/
def joinCommas : List Token → Token
  | [] => []
  | [t] => t
  | t :: u :: ts => t ++ ',' :: joinCommas (u :: ts)

/-- The name of register `i`: the letter `R` followed by `show(i)` (R20). -/
def regName (i : RegIdx) : Token := 'R' :: showNat i.val

/-- The register a token names, if any: the `i` whose name it equals (R79). -/
def parseReg (tok : Token) : Option RegIdx :=
  (List.finRange 32).find? (fun i => regName i == tok)

/-- `[0-9]+`: one or more decimal digits, read in base ten, leading zeros allowed (R80). -/
def parseDigits (ds : Token) : Option Nat :=
  if ds ≠ [] ∧ ds.all Char.isDigit = true then
    some (ds.foldl (fun acc c => acc * 10 + digitValue c) 0)
  else none

/-- `[+-]?[0-9]+`, as the unbounded integer it denotes (R80). -/
def parseInt : Token → Option Int
  | '+' :: ds => (parseDigits ds).map Int.ofNat
  | '-' :: ds => (parseDigits ds).map (fun n => -Int.ofNat n)
  | ds => (parseDigits ds).map Int.ofNat

/-- A token holds no comma: what one operand position of a record can hold (R74). -/
def commaFree (tok : Token) : Bool := tok.all (fun c => c != ',')

end Sys2Proof.Machine
end

