-- ==== Sys2Proof/Syntax.lean ====
section
/-! DEFINITION. Instructions: the decoder's output and the eleven rows of spec/opcode_table.json (spec/30_encoding.md R70, R87). -/

namespace Sys2Proof

/-- The spec's `Instruction` (R87): an opcode tag and its operand tokens in declared order. -/
structure RawInstr where
  op : Token
  operands : List Token
  deriving DecidableEq, Repr

/-- An instruction of the vocabulary (R70), one constructor per opcode.  Each carries its operand
tokens as the record gives them: R158 lets the instruction's own rule check their number and
resolve them, and the faults name them (R171).  DEDUCED (notes/assumptions/11.md): safe. -/
inductive Instr where
  /-- `ADD,{rd},{rs},{rt}` (R102). -/
  | add (operands : List Token)
  /-- `ADDI,{rt},{rs},{imm}` (R103). -/
  | addi (operands : List Token)
  /-- `SUB,{rd},{rs},{rt}` (R104). -/
  | sub (operands : List Token)
  /-- `SLT,{rd},{rs},{rt}` (R105). -/
  | slt (operands : List Token)
  /-- `BNE[,{any}...]` (R121). -/
  | bne (operands : List Token)
  /-- `J,{target}` (R120). -/
  | j (operands : List Token)
  /-- `JAL[,{any}...]` (R122). -/
  | jal (operands : List Token)
  /-- `LW[,{any}...]` (R130). -/
  | lw (operands : List Token)
  /-- `SW[,{any}...]` (R131). -/
  | sw (operands : List Token)
  /-- `CACHE,{code}` (R140). -/
  | cache (operands : List Token)
  /-- `0` or `HALT[,{any}...]` (R141). -/
  | halt (operands : List Token)
  deriving DecidableEq, Repr

/-- The operand tokens of an instruction. -/
def Instr.operands : Instr → List Token
  | .add ops | .addi ops | .sub ops | .slt ops | .bne ops | .j ops
  | .jal ops | .lw ops | .sw ops | .cache ops | .halt ops => ops

/-- The first token of an instruction's record (R76), letter for letter. -/
def Instr.opToken : Instr → Token
  | .add _ => "ADD".toList
  | .addi _ => "ADDI".toList
  | .sub _ => "SUB".toList
  | .slt _ => "SLT".toList
  | .bne _ => "BNE".toList
  | .j _ => "J".toList
  | .jal _ => "JAL".toList
  | .lw _ => "LW".toList
  | .sw _ => "SW".toList
  | .cache _ => "CACHE".toList
  | .halt _ => "HALT".toList

end Sys2Proof
end

