-- ==== Sys2Proof/WellFormed.lean ====
section
/-! DEFINITION. Which instructions are well formed: the operand layouts of spec/30_encoding.md R77 to R80 and the codes of R52. -/

namespace Sys2Proof

open Machine

/-- The token names a register (R79). -/
def isRegToken (tok : Token) : Bool := (parseReg tok).isSome

/-- The token is an integer (R80). -/
def isIntToken (tok : Token) : Bool := (parseInt tok).isSome

/-- The token is an integer and one of the cache codes 0, 1, 2 (R52). -/
def isCacheCode (tok : Token) : Bool :=
  parseInt tok = some 0 || parseInt tok = some 1 || parseInt tok = some 2

/-- Format R (R77): exactly three register tokens. -/
def isThreeRegisters : List Token → Bool
  | [rd, rs, rt] => isRegToken rd && isRegToken rs && isRegToken rt
  | _ => false

/-- Format I (R77): two register tokens and an integer token. -/
def isRegisterImmediate : List Token → Bool
  | [rt, rs, imm] => isRegToken rt && isRegToken rs && isIntToken imm
  | _ => false

/-- Format T (R77): one integer token. -/
def isTarget : List Token → Bool
  | [target] => isIntToken target
  | _ => false

/-- Format C (R77): one cache code. -/
def isCode : List Token → Bool
  | [code] => isCacheCode code
  | _ => false

/-- No operand holds a comma, so that the operands are the pieces of one record (R74). -/
def Instr.commaFree (i : Instr) : Bool := i.operands.all Machine.commaFree

/-- The instruction's operands fit its layout: no check of R78 to R80 or R52 fails on it.
Formats H and U look at no operand (R77), so any pieces of a record will do there. -/
def Instr.wellFormed : Instr → Bool
  | .add ops => isThreeRegisters ops
  | .sub ops => isThreeRegisters ops
  | .slt ops => isThreeRegisters ops
  | .addi ops => isRegisterImmediate ops
  | .j ops => isTarget ops
  | .cache ops => isCode ops
  | .bne ops => ops.all Machine.commaFree
  | .jal ops => ops.all Machine.commaFree
  | .lw ops => ops.all Machine.commaFree
  | .sw ops => ops.all Machine.commaFree
  | .halt ops => ops.all Machine.commaFree

end Sys2Proof
end

