-- ==== Sys2Proof/Decode.lean ====
section
/-! DEFINITION. The decoder and the encoder (spec/30_encoding.md R71 to R76, R82 to R85). -/

namespace Sys2Proof

open Machine

/-- Why the decoder gives no instruction: the first token is outside the vocabulary (R82).
The step turns it into the fault `InvalidOpcode` (R156). -/
inductive DecodeError where
  | invalidOpcode (op : Token)
  deriving DecidableEq, Repr

/-- The sentinel written as text (R73). -/
def textSentinel : Token := "0".toList

/-- `decode(raw)` of R72, total on every cell: the sentinel in both its forms is HALT with no
operands (R73), a nonzero integer is the one token `show(n)` (R85), a text is cut at its commas (R74). -/
def decodeRecord : Cell → RawInstr
  | .int w =>
    if w = 0 then { op := "HALT".toList, operands := [] }
    else { op := showInt w.toInt, operands := [] }
  | .text s =>
    if s = textSentinel then { op := "HALT".toList, operands := [] }
    else
      match splitCommas s with
      | [] => { op := [], operands := [] }
      | op :: operands => { op := op, operands := operands }

/-- The opcode vocabulary (R70), in the order the spec lists it. -/
def vocabulary : List Token :=
  ["ADD".toList, "ADDI".toList, "SUB".toList, "SLT".toList, "BNE".toList, "J".toList,
    "JAL".toList, "LW".toList, "SW".toList, "CACHE".toList, "HALT".toList]

/-- `is_valid(inst)` (R75): exact membership of the opcode in the vocabulary. -/
def isValid (r : RawInstr) : Bool := decide (r.op ∈ vocabulary)

/-- The opcode map (R76): the first token selects the instruction, anything else none. -/
def classify (r : RawInstr) : Except DecodeError Instr :=
  if r.op = "ADD".toList then .ok (.add r.operands)
  else if r.op = "ADDI".toList then .ok (.addi r.operands)
  else if r.op = "SUB".toList then .ok (.sub r.operands)
  else if r.op = "SLT".toList then .ok (.slt r.operands)
  else if r.op = "J".toList then .ok (.j r.operands)
  else if r.op = "BNE".toList then .ok (.bne r.operands)
  else if r.op = "JAL".toList then .ok (.jal r.operands)
  else if r.op = "LW".toList then .ok (.lw r.operands)
  else if r.op = "SW".toList then .ok (.sw r.operands)
  else if r.op = "CACHE".toList then .ok (.cache r.operands)
  else if r.op = "HALT".toList then .ok (.halt r.operands)
  else .error (.invalidOpcode r.op)

/-- The instruction a cell holds, or the opcode outside the vocabulary that it holds instead. -/
def decode (c : Cell) : Except DecodeError Instr := classify (decodeRecord c)

/-- The record of an instruction (R77, R84): its first token and its operands, joined by commas.
HALT is written as the text record `HALT`, one of its three forms (R141). -/
def encode (i : Instr) : Cell := .text (joinCommas (i.opToken :: i.operands))

/-- The characters in the low `n` bytes of `w`, the lowest byte first. -/
def textOfBytes : Nat → Nat → Token
  | 0, _ => []
  | n + 1, w => Char.ofNat (w % 256) :: textOfBytes n (w / 256)

/-- A text without the zero characters at its end. -/
def dropPadding : Token → Token
  | [] => []
  | c :: cs =>
    match dropPadding cs with
    | [] => if c = Char.ofNat 0 then [] else [c]
    | d :: ds => c :: d :: ds

/-- DESIGN CHOICE (notes/assumptions/10.md).  The hardware has no binary encoding, so this is how a
numbered word of the opcode table's form stands for a cell: each byte, the lowest first, is one
character of the text record, zero bytes at the end are padding, and a word of zeros alone is the
integer sentinel `Int 0`.  Unsafe only for a claim about such a word. -/
def cellOfTableWord (nbits w : Nat) : Cell :=
  match dropPadding (textOfBytes (nbits / 8) w) with
  | [] => .int 0
  | c :: cs => .text (c :: cs)

/-- The instruction the decoder reads from the cell that a word of the opcode table stands for. -/
def decodeTableWord (nbits w : Nat) : Option Instr :=
  match decode (cellOfTableWord nbits w) with
  | .ok i => some i
  | .error _ => none

end Sys2Proof
end

