-- ==== Sys2Proof/Machine/Flags.lean ====
section
/-! DEFINITION. What the ALU computes (spec/40_alu.md R100, R101, R106).  The core has no flags (spec/10_state.md R27), so a result is all there is to compute. -/

namespace Sys2Proof.Machine

/-- `wrap(v)` of R9: the word congruent to `v` modulo 2^32.  Overflow raises and sets nothing (R101). -/
def wrap (v : Int) : Word := BitVec.ofInt 32 v

/-- `alu_add` (R100): the exact sum, wrapped. -/
def aluAdd (a b : Word) : Word := wrap (a.toInt + b.toInt)

/-- `alu_sub` (R100): the exact difference, wrapped. -/
def aluSub (a b : Word) : Word := wrap (a.toInt - b.toInt)

/-- `alu_addi` (R100): the immediate is any integer and is not extended (R81). -/
def aluAddi (a : Word) (imm : Int) : Word := wrap (a.toInt + imm)

/-- `alu_slt` (R100): the comparison is signed (R106). -/
def aluSlt (a b : Word) : Word := if a.toInt < b.toInt then 1 else 0

end Sys2Proof.Machine
end

