-- ==== Sys2Proof/Config.lean ====
section
/-! DEFINITION. The implementation parameters of spec/00_scope.md R8 that a construction of the core chooses. -/

namespace Sys2Proof

/-- The cache mode (R25).  FLUSHED is a notification, never a mode (90_conflicts.md C2). -/
inductive CacheMode where
  | off
  | on
  deriving DecidableEq, Repr

/-- The parameters of R8 that vary from one construction to another.  The other three are fixed:
`WORD_BITS` is the width of `Word`, `NUM_REGS` the bound of `RegIdx`, and `JUMP_SCALE` is
`Sys2Proof.Machine.jumpScale`. -/
structure Config where
  /-- `MEM_CAPACITY`, the number of memory cells. -/
  memCapacity : Nat
  /-- `CACHE_LINES`, the lines of the direct-mapped cache (R24, R49). -/
  cacheLines : Nat
  /-- `INIT_CACHE_MODE`, the cache mode after reset. -/
  initMode : CacheMode
  deriving DecidableEq, Repr

/-- What the host's construction with capacity `n` builds: `CACHE_LINES = MEM_CAPACITY` and the
cache off (R8, R190). -/
def Config.ofCapacity (n : Nat) : Config :=
  { memCapacity := n, cacheLines := n, initMode := .off }

/-- The values this hardware takes (R8): 1024 cells, as many lines, cache off. -/
def Config.standard : Config := Config.ofCapacity 1024

/-- R8 admits any capacity of at least 1 (92_eei_decisions.md D23), and a direct-mapped cache has at
least one line (R49 divides by the count). -/
abbrev Config.wf (c : Config) : Prop := 1 ≤ c.memCapacity ∧ 1 ≤ c.cacheLines

end Sys2Proof
end

