-- ==== Sys2Proof/Machine/State.lean ====
section
/-! DEFINITION. The machine's state, what can stop it, and reset (spec/10_state.md R20 to R35; spec/60_exceptions.md R171). -/

namespace Sys2Proof.Machine

/-- A fatal error of the core and the information it records: the closed list of R171.  Raising one
is a next state whose `fault` field holds it (R12, R30), never an `Outcome.fault`.
DEDUCED (notes/assumptions/3.md): safe. -/
inductive FatalError where
  /-- `load` or `store` called with an address outside memory (R46). -/
  | outOfBounds (address : Int)
  /-- A register operand that names no register (R79). -/
  | unknownRegister (token : Token)
  /-- CACHE with a code other than 0, 1, 2 (R52). -/
  | invalidCacheCode (code : Int)
  /-- A fetch at a PC outside memory (R152). -/
  | programCounterOutOfBounds (pc : Int)
  /-- `load_program` with more records than cells (R192). -/
  | programTooLarge (count : Nat)
  /-- BNE, JAL, LW or SW reached (R157). -/
  | unimplementedOpcode (opcode : Token)
  /-- A wrong number of operands (R78). -/
  | operandCountMismatch (opcode : Token) (count : Nat)
  /-- An integer operand outside the grammar (R80). -/
  | invalidOperand (token : Token)
  /-- A first token outside the vocabulary (R156). -/
  | invalidOpcode (opcode : Token)
  deriving DecidableEq, Repr

/-- One line of the direct-mapped cache (R24). -/
inductive Line where
  | invalid
  | valid (tag : Int) (value : Cell)
  deriving DecidableEq, Repr

/-- An observable event (R29). -/
inductive Event where
  /-- The values of `R0`..`R31` after an executed instruction; register `i` is entry `i`. -/
  | snapshot (regs : Vector Word 32)
  /-- The text a CACHE instruction notifies. -/
  | notify (text : Token)
  /-- An ON-mode load at this address that hit. -/
  | cacheHit (address : Int)
  /-- An ON-mode load at this address that missed and filled its line. -/
  | cacheFill (address : Int)
  deriving DecidableEq, Repr

/-- The whole state of the core: the record at the head of spec/10_state.md, with the parameters the
core was constructed with.  Nothing else survives a step (R33). -/
structure State where
  /-- General registers `R0`..`R31`, none hard-wired (R20). -/
  x : Vector Word 32
  /-- Program counter: an unbounded cell index (R21). -/
  pc : Int
  /-- Backing storage (R40) as the (address, cell) pairs that differ from `Int 0`, addresses rising
  (DEDUCED, notes/assumptions/4.md: safe). -/
  mem : List (Nat × Cell)
  /-- Cache lines (R24) as the (index, line) pairs that are not `Invalid`, indices rising. -/
  lines : List (Nat × Line)
  /-- Cache mode (R25). -/
  mode : CacheMode
  /-- Halt flag (R26). -/
  halted : Bool
  /-- Fault field (R30). -/
  fault : Option FatalError
  /-- Observable output so far, oldest first (R29). -/
  trace : List Event
  /-- The parameters of the construction (R8, R165), which nothing changes afterwards
  (DEDUCED, notes/assumptions/6.md: safe). -/
  cfg : Config
  deriving DecidableEq, Repr

/-- Why `step` answers no next state although nothing is wrong with the model: the spec enables no
step there (R150), so there is no next state to give.  DESIGN CHOICE (notes/assumptions/2.md): safe. -/
inductive Fault where
  /-- Raised by `step` on a HALTED core ("HALTED is terminal", R150, R189).  Safe: the hardware goes
  no further either. -/
  | alreadyHalted
  /-- Raised by `step` on a FAULTED core, with the fatal error it stopped on (R150, R170).  Safe: the
  hardware goes no further either. -/
  | alreadyFaulted (error : FatalError)
  deriving DecidableEq, Repr

/-- Refusals.  No arm of `exec` answers one. -/
inductive Refusal where
  /-- Raised by an arm of `exec` whose instruction had no meaning; there is none.  Safe. -/
  | notModelled (mnemonic : String)
  deriving DecidableEq, Repr

/-- A memory in its canonical form: addresses strictly rising and below the capacity, and no entry
equal to `Int 0`, which is what an unlisted address reads as (R32). -/
abbrev Memory.wf (capacity : Nat) (m : List (Nat × Cell)) : Prop :=
  m.Pairwise (fun p q => p.1 < q.1) ∧ ∀ p ∈ m, p.1 < capacity ∧ p.2 ≠ Cell.int 0

/-- The cache lines in their canonical form: indices strictly rising and below the line count, and
no entry `Invalid`, which is what an unlisted line is. -/
abbrev Lines.wf (count : Nat) (l : List (Nat × Line)) : Prop :=
  l.Pairwise (fun p q => p.1 < q.1) ∧ ∀ p ∈ l, p.1 < count ∧ p.2 ≠ Line.invalid

/-- The core right after construction with the parameters `c`: every field at the value of R32. -/
def State.construct (c : Config) : State :=
  { x := Vector.replicate 32 0
    pc := 0
    mem := []
    lines := []
    mode := c.initMode
    halted := false
    fault := none
    trace := []
    cfg := c }

/-- The machine right after reset: the construction with the parameters of R8 (R32, R190).
It holds no program (notes/assumptions/9.md): the host loads one (R192, R193). -/
def State.reset : State := State.construct Config.standard

end Sys2Proof.Machine
end

