-- ==== Sys2Proof/Machine/Ops.lean ====
section
/-! DEFINITION. The operations every step is made of: memory and cache (spec/20_memory.md), registers and PC (spec/10_state.md), raising a fault (spec/60_exceptions.md) and ending an instruction (spec/44_run_loop.md). -/

namespace Sys2Proof.Machine

/-- `JUMP_SCALE` of R8. -/
def jumpScale : Int := 4

/-! ## Sparse arrays: rising (key, value) pairs, an unlisted key holding `d` -/

/-- The value at key `a`. -/
def sparseGet {α : Type} (d : α) : List (Nat × α) → Nat → α
  | [], _ => d
  | (k, v) :: rest, a => if a < k then d else if a = k then v else sparseGet d rest a

/-- An entry in front of `rest`, left out when it holds the value of an unlisted key. -/
def sparseCons {α : Type} [DecidableEq α] (d : α) (a : Nat) (v : α) (rest : List (Nat × α)) :
    List (Nat × α) :=
  if v = d then rest else (a, v) :: rest

/-- The array with `v` at key `a`. -/
def sparseSet {α : Type} [DecidableEq α] (d : α) : List (Nat × α) → Nat → α → List (Nat × α)
  | [], a, v => sparseCons d a v []
  | (k, w) :: rest, a, v =>
    if a < k then sparseCons d a v ((k, w) :: rest)
    else if a = k then sparseCons d a v rest
    else (k, w) :: sparseSet d rest a v

/-! ## Registers, PC, trace -/

/-- `x[i]` (R10, R22). -/
def readReg (i : RegIdx) (s : State) : Word := s.x[i.val]

/-- `x[i] <- v` (R10, R23): exactly one register changes, `R0` like any other (R20). -/
def writeReg (i : RegIdx) (v : Word) (s : State) : State :=
  { s with x := s.x.set i.val v }

/-- `read_pc` (R31): it cannot fail. -/
def readPc (s : State) : Int := s.pc

/-- `write_pc` (R31): no bound is checked here. -/
def writePc (v : Int) (s : State) : State := { s with pc := v }

/-- `emit(e)` (R10): the event is appended to the trace. -/
def emit (e : Event) (s : State) : State := { s with trace := s.trace ++ [e] }

/-! ## Memory cells and cache lines -/

/-- The address is a cell of memory (R41). -/
abbrev inBounds (a : Int) (s : State) : Prop := 0 ≤ a ∧ a < s.cfg.memCapacity

/-- `Backing[a]` (R11), for an address in bounds: the backing cell, without the cache.  What an
unlisted address reads as is `Int 0`, the value of every cell after reset (R32, R40). -/
def backing (a : Int) (s : State) : Cell := sparseGet (.int 0) s.mem a.toNat

/-- `mem[a] <- v`, for an address in bounds. -/
def setBacking (a : Int) (v : Cell) (s : State) : State :=
  { s with mem := sparseSet (.int 0) s.mem a.toNat v }

/-- `idx(a) = a mod CACHE_LINES` (R49), for an address in bounds. -/
def lineIndex (a : Int) (s : State) : Nat := (a % s.cfg.cacheLines).toNat

/-- `tag(a) = a div CACHE_LINES` (R49). -/
def lineTag (a : Int) (s : State) : Int := a / s.cfg.cacheLines

/-- `lines[i]`. -/
def lineAt (i : Nat) (s : State) : Line := sparseGet .invalid s.lines i

/-- `lookup(a)` of R49: `some v` on a hit, `none` on a miss. -/
def lookup (a : Int) (s : State) : Option Cell :=
  match lineAt (lineIndex a s) s with
  | .invalid => none
  | .valid t v => if t = lineTag a s then some v else none

/-- `set_line(a, v)` (R50). -/
def setLine (a : Int) (v : Cell) (s : State) : State :=
  { s with lines := sparseSet .invalid s.lines (lineIndex a s) (.valid (lineTag a s) v) }

/-- `clear_lines()` (R51): every line `Invalid`. -/
def clearLines (s : State) : State := { s with lines := [] }

/-! ## The load/store unit -/

/-- `MemRead(a, 1)`, the load of one cell (R44 to R46): the cell and the state after it, or the
fatal error the load raises. -/
def loadCell (a : Int) (s : State) : Except FatalError (Cell × State) :=
  if inBounds a s then
    match s.mode with
    | .off => .ok (backing a s, s)
    | .on =>
      match lookup a s with
      | some v => .ok (v, emit (.cacheHit a) s)
      | none => .ok (backing a s, emit (.cacheFill a) (setLine a (backing a s) s))
  else .error (.outOfBounds a)

/-- `MemWrite(a, 1, v)`, the store of one cell (R46 to R48): write-through in both modes. -/
def storeCell (a : Int) (v : Cell) (s : State) : Except FatalError State :=
  if inBounds a s then
    match s.mode with
    | .off => .ok (setBacking a v s)
    | .on => .ok (setLine a v (setBacking a v s))
  else .error (.outOfBounds a)

/-! ## The cache's mode machine -/

/-- `cache_control(c)` of R52. -/
def cacheControl (c : Int) (s : State) : Except FatalError State :=
  if c = 0 then .ok (emit (.notify "Cache OFF".toList) { clearLines s with mode := .off })
  else if c = 1 then .ok (emit (.notify "Cache ON".toList) { s with mode := .on })
  else if c = 2 then .ok (emit (.notify "Cache FLUSHED".toList) (clearLines s))
  else .error (.invalidCacheCode c)

/-! ## Taking an exception, and the end of an instruction -/

/-- `raise <Fault>(info)` of R12, the core's only exception entry: `fault` holds the error, and
nothing else is saved, no mode changes and control goes nowhere (R182), so the PC stays at the
raising instruction's cell (R171).  There is no return from it (R183): nothing but a new
construction clears the field. -/
def raise (e : FatalError) (s : State) : State := { s with fault := some e }

/-- The advance of R159 for an instruction that did not redirect the PC. -/
def advance (s : State) : State := writePc (readPc s + 1) s

/-- The snapshot of R160: every register, not the PC (R29). -/
def snapshot (s : State) : State := emit (.snapshot s.x) s

/-- The end of an instruction's step (R12, R158 to R161): on success the run loop's advance and then
its snapshot, on a raise the fault over the state `s` the rule began with, so that nothing the rule
did is kept (R173). -/
def finish (s : State) (r : Except FatalError State) : Host.Outcome State Fault Refusal :=
  match r with
  | .ok t => .next (snapshot (advance t))
  | .error e => .next (raise e s)

/-- As `finish`, for an instruction that redirected the PC (R159): no advance. -/
def finishRedirected (s : State) (r : Except FatalError State) : Host.Outcome State Fault Refusal :=
  match r with
  | .ok t => .next (snapshot t)
  | .error e => .next (raise e s)

/-- The transition to HALTED (R141, R155): the flag alone; no advance and no snapshot. -/
def enterHalted (s : State) : State := { s with halted := true }

/-! ## The fetch unit -/

/-- The fetch: the bound check of R152, then the read of R153 through the cache.  The state in the
answer is the one the rest of the step starts from and keeps. -/
def fetch (s : State) : Except FatalError (Cell × State) :=
  if inBounds s.pc s then loadCell s.pc s else .error (.programCounterOutOfBounds s.pc)

end Sys2Proof.Machine
end

