-- ==== Sys2Proof/Machine/Operands.lean ====
section
/-! DEFINITION. Operand assembly: tokens to registers and integers, with the faults and their order (spec/30_encoding.md R78 to R81, R86; spec/60_exceptions.md R180). -/

namespace Sys2Proof.Machine

/-- `reg(tok)` (R79). -/
def regOperand (tok : Token) : Except FatalError RegIdx :=
  match parseReg tok with
  | some i => .ok i
  | none => .error (.unknownRegister tok)

/-- `int(tok)` (R80): no range check, no extension (R81). -/
def intOperand (tok : Token) : Except FatalError Int :=
  match parseInt tok with
  | some n => .ok n
  | none => .error (.invalidOperand tok)

/-- The typed operands of ADD, SUB and SLT (R86). -/
structure ThreeRegs where
  rd : RegIdx
  rs : RegIdx
  rt : RegIdx
  deriving DecidableEq, Repr

/-- The typed operands of ADDI (R86). -/
structure RegImm where
  rt : RegIdx
  rs : RegIdx
  imm : Int
  deriving DecidableEq, Repr

/-- Format R: the count first (R78), then rs, rt, rd (R180 item 6). -/
def threeRegs (op : Token) : List Token → Except FatalError ThreeRegs
  | [rd, rs, rt] => do
    let s ← regOperand rs
    let t ← regOperand rt
    let d ← regOperand rd
    pure { rd := d, rs := s, rt := t }
  | ops => .error (.operandCountMismatch op ops.length)

/-- Format I: the count first (R78), then rs, imm, rt (R180 item 6). -/
def regImm (op : Token) : List Token → Except FatalError RegImm
  | [rt, rs, imm] => do
    let s ← regOperand rs
    let i ← intOperand imm
    let d ← regOperand rt
    pure { rt := d, rs := s, imm := i }
  | ops => .error (.operandCountMismatch op ops.length)

/-- Formats T and C: the count first (R78), then the one integer. -/
def oneInt (op : Token) : List Token → Except FatalError Int
  | [tok] => intOperand tok
  | ops => .error (.operandCountMismatch op ops.length)

/-- `read(name)`, the register file's read port (R22). -/
def readNamed (name : Token) (s : State) : Except FatalError Word :=
  (regOperand name).map (fun i => readReg i s)

/-- `write(name, value)`, the register file's write port (R23). -/
def writeNamed (name : Token) (v : Word) (s : State) : Except FatalError State :=
  (regOperand name).map (fun i => writeReg i v s)

end Sys2Proof.Machine
end

