-- ==== Sys2Proof/Machine/Alu.lean ====
section
/-! DEFINITION. ADD, ADDI, SUB and SLT (spec/40_alu.md R102 to R105). -/

namespace Sys2Proof.Machine

/-- The rule ADD, SUB and SLT share: all checks, then both sources read, then the destination
written (R158; 40_alu.md section 2). -/
def registerRule (op : Token) (f : Word → Word → Word) (operands : List Token) (s : State) :
    Host.Outcome State Fault Refusal :=
  finish s ((threeRegs op operands).map
    (fun o => writeReg o.rd (f (readReg o.rs s) (readReg o.rt s)) s))

/-- ADD (R102): `x[rd] <- alu_add(x[rs], x[rt])`. -/
def execAdd (operands : List Token) (s : State) : Host.Outcome State Fault Refusal :=
  registerRule "ADD".toList aluAdd operands s

/-- ADDI (R103): `x[rt] <- alu_addi(x[rs], imm)`; the destination is the first operand. -/
def execAddi (operands : List Token) (s : State) : Host.Outcome State Fault Refusal :=
  finish s ((regImm "ADDI".toList operands).map
    (fun o => writeReg o.rt (aluAddi (readReg o.rs s) o.imm) s))

/-- SUB (R104): `x[rd] <- alu_sub(x[rs], x[rt])`. -/
def execSub (operands : List Token) (s : State) : Host.Outcome State Fault Refusal :=
  registerRule "SUB".toList aluSub operands s

/-- SLT (R105): `x[rd] <- alu_slt(x[rs], x[rt])`. -/
def execSlt (operands : List Token) (s : State) : Host.Outcome State Fault Refusal :=
  registerRule "SLT".toList aluSlt operands s

end Sys2Proof.Machine
end

