-- ==== Sys2Proof/Machine/Control.lean ====
section
/-! DEFINITION. J, and the unimplemented BNE and JAL (spec/41_control.md R120 to R122). -/

namespace Sys2Proof.Machine

/-- `raise UnimplementedOpcode(op)` (R157): the operands are not examined and nothing else changes. -/
def unimplemented (op : Token) (s : State) : Host.Outcome State Fault Refusal :=
  .next (raise (.unimplementedOpcode op) s)

/-- J (R120): `pc <- target * 4`, exact, never a bound fault here; J always counts as a redirect. -/
def execJ (operands : List Token) (s : State) : Host.Outcome State Fault Refusal :=
  finishRedirected s ((oneInt "J".toList operands).map (fun t => writePc (t * jumpScale) s))

/-- BNE (R121): always the fault `UnimplementedOpcode`. -/
def execBne (_operands : List Token) (s : State) : Host.Outcome State Fault Refusal :=
  unimplemented "BNE".toList s

/-- JAL (R122): always the fault `UnimplementedOpcode`; no link register is written. -/
def execJal (_operands : List Token) (s : State) : Host.Outcome State Fault Refusal :=
  unimplemented "JAL".toList s

end Sys2Proof.Machine
end

