-- ==== Sys2Proof/Machine/LoadStore.lean ====
section
/-! DEFINITION. The unimplemented LW and SW (spec/42_loadstore.md R130, R131). -/

namespace Sys2Proof.Machine

/-- LW (R130): always the fault `UnimplementedOpcode`; no cell is read, no line filled. -/
def execLw (_operands : List Token) (s : State) : Host.Outcome State Fault Refusal :=
  unimplemented "LW".toList s

/-- SW (R131): always the fault `UnimplementedOpcode`; memory is not written. -/
def execSw (_operands : List Token) (s : State) : Host.Outcome State Fault Refusal :=
  unimplemented "SW".toList s

end Sys2Proof.Machine
end

