-- ==== Sys2Proof/Machine/System.lean ====
section
/-! DEFINITION. CACHE and HALT (spec/43_system.md R140, R141). -/

namespace Sys2Proof.Machine

/-- CACHE (R140): the mode machine of R52 driven by the code; its notification precedes the snapshot. -/
def execCache (operands : List Token) (s : State) : Host.Outcome State Fault Refusal :=
  finish s (do
    let c ← oneInt "CACHE".toList operands
    cacheControl c s)

/-- HALT (R141, R155): the machine enters HALTED; the operands are never checked. -/
def execHalt (_operands : List Token) (s : State) : Host.Outcome State Fault Refusal :=
  .next (enterHalted s)

end Sys2Proof.Machine
end

