-- ==== Sys2Proof/Machine/Dispatch.lean ====
section
/-! DEFINITION. The dispatch of spec/44_run_loop.md R155, R157 and R158: one arm per instruction. -/

namespace Sys2Proof.Machine

/-- What an instruction does to the state its own fetch left (R155 to R160), whatever that state's run
state: `step` alone asks whether a step is enabled.  DEDUCED (notes/assumptions/12.md): safe. -/
def exec (i : Instr) (s : State) : Host.Outcome State Fault Refusal :=
  match i with
  | .add operands => Sys2Proof.Machine.execAdd operands s
  | .addi operands => Sys2Proof.Machine.execAddi operands s
  | .sub operands => Sys2Proof.Machine.execSub operands s
  | .slt operands => Sys2Proof.Machine.execSlt operands s
  | .bne operands => Sys2Proof.Machine.execBne operands s
  | .j operands => Sys2Proof.Machine.execJ operands s
  | .jal operands => Sys2Proof.Machine.execJal operands s
  | .lw operands => Sys2Proof.Machine.execLw operands s
  | .sw operands => Sys2Proof.Machine.execSw operands s
  | .cache operands => Sys2Proof.Machine.execCache operands s
  | .halt operands => Sys2Proof.Machine.execHalt operands s

end Sys2Proof.Machine
end

