-- ==== Sys2Proof/Machine/Step.lean ====
section
/-! DEFINITION. The fetch-decode-execute step (spec/44_run_loop.md R150, R161), and where a test puts the next instruction. -/

namespace Sys2Proof.Machine

/-- The step of R161, enabled only on a RUNNING core (R150): fetch, decode, dispatch.  An opcode
outside the vocabulary raises `InvalidOpcode` over the state the fetch left (R156). -/
def step (s : State) : Host.Outcome State Fault Refusal :=
  if s.halted then .fault .alreadyHalted
  else
    match s.fault with
    | some e => .fault (.alreadyFaulted e)
    | none =>
      match fetch s with
      | .error e => .next (raise e s)
      | .ok (raw, t) =>
        match decode raw with
        | .error (.invalidOpcode op) => .next (raise (.invalidOpcode op) t)
        | .ok i => exec i t

/-- `s` with the cell that a word of the opcode table stands for stored where the next step fetches:
a `store` at `pc` (R47), which in either cache mode is what the next fetch there reads (R60).  Where
`pc` is outside memory there is nothing to store to and `s` is unchanged. -/
def State.withFetchWord (s : State) (nbits w : Nat) : State :=
  match storeCell s.pc (cellOfTableWord nbits w) s with
  | .ok t => t
  | .error _ => s

end Sys2Proof.Machine
end

