-- ==== Sys2Proof/Machine/HostPort.lean ====
section
/-! DEFINITION. The host's moves on the core, all between steps (spec/44_run_loop.md R162, R165; spec/20_memory.md R63 to R65; spec/70_reset_and_hazards.md R190 to R193). -/

namespace Sys2Proof.Machine

/-- The three run states of R150. -/
inductive RunState where
  | running
  | halted
  | faulted
  deriving DecidableEq, Repr

/-- The run state a core is in (R150).  Both flags together, which no step leaves (R35) and only a raise
by the host on a HALTED core does (R172, notes/assumptions/7.md), read as halted. -/
def runState (s : State) : RunState :=
  if s.halted then .halted
  else
    match s.fault with
    | some _ => .faulted
    | none => .running

/-- The numeric code of a fatal error (R171). -/
def errorCode : FatalError → Nat
  | .outOfBounds _ => 1
  | .unknownRegister _ => 2
  | .invalidCacheCode _ => 3
  | .programCounterOutOfBounds _ => 4
  | .programTooLarge _ => 5
  | .unimplementedOpcode _ => 6
  | .operandCountMismatch _ _ => 7
  | .invalidOperand _ => 8
  | .invalidOpcode _ => 9

/-- A raise by a host move sets `fault` (R172), on a RUNNING core and on a HALTED one, whose halt flag
only a new construction clears (R34, R190).  DEDUCED (notes/assumptions/7.md): a core that holds a fault
is final with that fault (R170, R30) and keeps it; unsafe. -/
def hostRaise (e : FatalError) (s : State) : State :=
  match s.fault with
  | none => raise e s
  | some _ => s

/-- The move `construct` (R165, R190): a core with `n` cells; a capacity of 0 is refused
(92_eei_decisions.md D23). -/
def hostConstruct (n : Nat) : Option State :=
  if 1 ≤ n then some (State.construct (Config.ofCapacity n)) else none

/-- The records written at consecutive addresses from `a` on. -/
def writeCells : Nat → List Cell → List (Nat × Cell) → List (Nat × Cell)
  | _, [], m => m
  | a, c :: cs, m => writeCells (a + 1) cs (sparseSet (.int 0) m a c)

/-- The move `load_program` (R192): what the caller gets and the state after it.  The records go to
backing storage directly, past the cache (R63), on a core that has run as on a fresh one (R64, R193);
too many of them are refused before any is written, and the caller is told (R170, R172).  DESIGN CHOICE
(notes/assumptions/14.md): a record may be `Int n` with `n ≠ 0`, as R192 checks none, though R85 says
only `store` can write such a cell; unsafe. -/
def loadProgram (r : List Cell) (s : State) : Except FatalError Unit × State :=
  if s.cfg.memCapacity < r.length then
    (.error (.programTooLarge r.length), hostRaise (.programTooLarge r.length) s)
  else (.ok (), { s with mem := writeCells 0 r s.mem })

/-- The component interface's `load(a)` (R44, R65): what the caller gets, the cell or the error it raised
(R172), and the state after it.  DESIGN CHOICE (notes/assumptions/8.md): an in-bounds call acts in every
run state; unsafe. -/
def hostLoad (a : Int) (s : State) : Except FatalError Cell × State :=
  match loadCell a s with
  | .ok (v, t) => (.ok v, t)
  | .error e => (.error e, hostRaise e s)

/-- The component interface's `store(a, v)` (R47, R65): what the caller gets, nothing or the error it
raised (R172), and the state after it.  DESIGN CHOICE (notes/assumptions/8.md): as for `hostLoad`;
unsafe. -/
def hostStore (a : Int) (v : Cell) (s : State) : Except FatalError Unit × State :=
  match storeCell a v s with
  | .ok t => (.ok (), t)
  | .error e => (.error e, hostRaise e s)

/-- The move `run` (R162) for at most `fuel` steps: `step` while it is enabled. -/
def hostRun : Nat → State → State
  | 0, s => s
  | fuel + 1, s =>
    match step s with
    | .next t => hostRun fuel t
    | .fault _ => s
    | .refused _ => s

/-- What the host reads (R165): the trace, the registers, the halt flag and the fault. -/
structure Outputs where
  trace : List Event
  x : Vector Word 32
  halted : Bool
  fault : Option FatalError
  deriving DecidableEq, Repr

/-- The move "read outputs" (R165). -/
def outputs (s : State) : Outputs :=
  { trace := s.trace, x := s.x, halted := s.halted, fault := s.fault }

end Sys2Proof.Machine
end

