-- ==== Sys2Proof/Safety.lean ====
section
/-! DEFINITION. The terms the claims use: run states, coherence, the invariant, reachability, and what a rule of the spec asks of an instruction. -/

namespace Sys2Proof.Machine

/-! ## States and runs -/

/-- RUNNING (R150): the states in which a step is enabled. -/
def Running (s : State) : Prop := s.halted = false ∧ s.fault = none

/-- The coherence invariant of R53, both parts.  The address of a valid line is a cell of memory,
which R53 takes for granted when it names `mem[t × CACHE_LINES + i]`. -/
structure Coherent (s : State) : Prop where
  lineHoldsItsCell : ∀ (i : Nat) (t : Int) (v : Cell), lineAt i s = .valid t v →
    inBounds (t * s.cfg.cacheLines + i) s ∧ v = backing (t * s.cfg.cacheLines + i) s
  offMeansEmpty : s.mode = .off → ∀ i : Nat, lineAt i s = .invalid

/-- R35: not both halted and faulted.  R35 derives it from the steps; a raise by the host on a HALTED core
sets `fault` there (R172, notes/assumptions/7.md). -/
def TerminalExclusive (s : State) : Prop := ¬ (s.halted = true ∧ s.fault ≠ none)

/-- What holds of every state the core can be in. -/
structure Inv (s : State) : Prop where
  parameters : s.cfg.wf
  memory : Memory.wf s.cfg.memCapacity s.mem
  lines : Lines.wf s.cfg.cacheLines s.lines
  coherent : Coherent s

/-- The states the core can be in: constructed with admissible parameters and loaded once (R193),
then moved by steps and by calls of the component interface (R65).  What the program may hold and what a
call does on a HALTED or FAULTED core are the model's choices (notes/assumptions/7.md, 8.md, 14.md). -/
inductive Reachable : State → Prop where
  | boot (c : Config) (r : List Cell) (h : c.wf) : Reachable (loadProgram r (State.construct c)).2
  | step {s t : State} (h : Reachable s) (e : step s = .next t) : Reachable t
  | load {s : State} (a : Int) (h : Reachable s) : Reachable (hostLoad a s).2
  | store {s : State} (a : Int) (v : Cell) (h : Reachable s) : Reachable (hostStore a v s).2

/-- A call for the cell at `a` that cannot raise on a HALTED core: the cell is in memory, or the core has
not halted. -/
def NoRaiseAfterHalt (a : Int) (s : State) : Prop := inBounds a s ∨ s.halted = false

/-- The states reached as `Reachable` has it, but with no call outside memory on a HALTED core: the
moves after which R35 and R172 agree (notes/assumptions/7.md). -/
inductive ReachableBeforeLateRaise : State → Prop where
  | boot (c : Config) (r : List Cell) (h : c.wf) :
      ReachableBeforeLateRaise (loadProgram r (State.construct c)).2
  | step {s t : State} (h : ReachableBeforeLateRaise s) (e : step s = .next t) :
      ReachableBeforeLateRaise t
  | load {s : State} (a : Int) (h : ReachableBeforeLateRaise s) (n : NoRaiseAfterHalt a s) :
      ReachableBeforeLateRaise (hostLoad a s).2
  | store {s : State} (a : Int) (v : Cell) (h : ReachableBeforeLateRaise s)
      (n : NoRaiseAfterHalt a s) : ReachableBeforeLateRaise (hostStore a v s).2

/-- The two states differ in nothing but the cache: lines, mode and the trace, which records hits
and fills. -/
structure SameButCache (s t : State) : Prop where
  x : s.x = t.x
  pc : s.pc = t.pc
  mem : s.mem = t.mem
  halted : s.halted = t.halted
  fault : s.fault = t.fault
  cfg : s.cfg = t.cfg

/-! ## Tokens -/

/-- The grammar `[+-]?[0-9]+` of R80 and the integer a token of it denotes: `ds` are the digits,
the leftmost the most significant. -/
inductive Denotes : Token → Int → Prop where
  | plain (ds : Token) (h : ds ≠ []) (d : ∀ c ∈ ds, c.isDigit = true) :
      Denotes ds (Nat.ofDigits 10 (ds.reverse.map digitValue))
  | plus (ds : Token) (h : ds ≠ []) (d : ∀ c ∈ ds, c.isDigit = true) :
      Denotes ('+' :: ds) (Nat.ofDigits 10 (ds.reverse.map digitValue))
  | minus (ds : Token) (h : ds ≠ []) (d : ∀ c ∈ ds, c.isDigit = true) :
      Denotes ('-' :: ds) (-(Nat.ofDigits 10 (ds.reverse.map digitValue) : Nat))

/-- The token names no register (R79). -/
def NamesNoRegister (tok : Token) : Prop := ∀ i : RegIdx, tok ≠ regName i

/-- The token is no integer (R80). -/
def NoInteger (tok : Token) : Prop := ∀ n : Int, ¬ Denotes tok n

/-- `wrap(v)` as R9 writes it out: the integer the wrapped word stands for. -/
def wrapValue (v : Int) : Int := (v + 2 ^ 31) % 2 ^ 32 - 2 ^ 31

/-! ## What a rule asks of its instruction -/

/-- The whole effect of an executed ALU instruction (R102 to R105, R159, R160): the destination
register holds `v`, every other register is as before, the PC is one further, a snapshot of the
registers is emitted, and every other field is as before. -/
structure RegisterResult (d : RegIdx) (v : Int) (s t : State) : Prop where
  value : (readReg d t).toInt = v
  others : ∀ j : RegIdx, j ≠ d → readReg j t = readReg j s
  rest : t = { s with x := t.x, pc := s.pc + 1, trace := s.trace ++ [.snapshot t.x] }

/-- What R102, R104 and R105 say of an instruction of format R with the opcode `op` whose result is
`f` of its two sources: its record, its result, and its faults in their order. -/
structure ThreeRegisterRule (op : Token) (mk : List Token → Instr) (f : Int → Int → Int) : Prop where
  decodes : ∀ rd rs rt : Token, commaFree rd = true → commaFree rs = true → commaFree rt = true →
    decode (.text (op ++ ',' :: rd ++ ',' :: rs ++ ',' :: rt)) = .ok (mk [rd, rs, rt])
  result : ∀ (s : State) (d a b : RegIdx),
    ∃ t, exec (mk [regName d, regName a, regName b]) s = .next t ∧
      RegisterResult d (f (readReg a s).toInt (readReg b s).toInt) s t
  countFault : ∀ (s : State) (ops : List Token), ops.length ≠ 3 →
    exec (mk ops) s = .next { s with fault := some (.operandCountMismatch op ops.length) }
  rsFault : ∀ (s : State) (rd rs rt : Token), NamesNoRegister rs →
    exec (mk [rd, rs, rt]) s = .next { s with fault := some (.unknownRegister rs) }
  rtFault : ∀ (s : State) (rd rt : Token) (a : RegIdx), NamesNoRegister rt →
    exec (mk [rd, regName a, rt]) s = .next { s with fault := some (.unknownRegister rt) }
  rdFault : ∀ (s : State) (rd : Token) (a b : RegIdx), NamesNoRegister rd →
    exec (mk [rd, regName a, regName b]) s = .next { s with fault := some (.unknownRegister rd) }

/-- What R103 says of ADDI: its record, its result for every immediate of the grammar, and its
faults in their order. -/
structure AddiRule : Prop where
  decodes : ∀ rt rs imm : Token, commaFree rt = true → commaFree rs = true → commaFree imm = true →
    decode (.text ("ADDI".toList ++ ',' :: rt ++ ',' :: rs ++ ',' :: imm)) = .ok (.addi [rt, rs, imm])
  result : ∀ (s : State) (d a : RegIdx) (imm : Token) (n : Int), Denotes imm n →
    ∃ t, exec (.addi [regName d, regName a, imm]) s = .next t ∧
      RegisterResult d (wrapValue ((readReg a s).toInt + n)) s t
  countFault : ∀ (s : State) (ops : List Token), ops.length ≠ 3 →
    exec (.addi ops) s =
      .next { s with fault := some (.operandCountMismatch "ADDI".toList ops.length) }
  rsFault : ∀ (s : State) (rt rs imm : Token), NamesNoRegister rs →
    exec (.addi [rt, rs, imm]) s = .next { s with fault := some (.unknownRegister rs) }
  immFault : ∀ (s : State) (rt imm : Token) (a : RegIdx), NoInteger imm →
    exec (.addi [rt, regName a, imm]) s = .next { s with fault := some (.invalidOperand imm) }
  rtFault : ∀ (s : State) (rt imm : Token) (a : RegIdx) (n : Int), Denotes imm n →
    NamesNoRegister rt →
    exec (.addi [rt, regName a, imm]) s = .next { s with fault := some (.unknownRegister rt) }

/-- What R120 says of J: its record, its redirect (exact, no bound checked, no advance), its faults in
their order, and that the next fetch is at the target or finds it outside memory. -/
structure JumpRule : Prop where
  decodes : ∀ target : Token, commaFree target = true →
    decode (.text ("J".toList ++ ',' :: target)) = .ok (.j [target])
  result : ∀ (s : State) (target : Token) (n : Int), Denotes target n →
    exec (.j [target]) s = .next { s with pc := n * 4, trace := s.trace ++ [.snapshot s.x] }
  countFault : ∀ (s : State) (ops : List Token), ops.length ≠ 1 →
    exec (.j ops) s = .next { s with fault := some (.operandCountMismatch "J".toList ops.length) }
  targetFault : ∀ (s : State) (target : Token), NoInteger target →
    exec (.j [target]) s = .next { s with fault := some (.invalidOperand target) }
  nextFetch : ∀ (s t : State) (target : Token) (n : Int), Running s → Denotes target n →
    exec (.j [target]) s = .next t →
    (¬ (0 ≤ n * 4 ∧ n * 4 < s.cfg.memCapacity) →
      step t = .next { t with fault := some (.programCounterOutOfBounds (n * 4)) }) ∧
    (0 ≤ n * 4 → n * 4 < s.cfg.memCapacity → fetch t = loadCell (n * 4) t)

/-- What R121, R122, R130, R131 and R157 say of an unimplemented opcode: a record with any operands
is read as it, and it raises `UnimplementedOpcode`, changing nothing else; no step follows. -/
structure UnimplementedRule (op : Token) (mk : List Token → Instr) : Prop where
  decodes : ∀ ops : List Token, (∀ o ∈ ops, commaFree o = true) →
    decode (.text (joinCommas (op :: ops))) = .ok (mk ops)
  raises : ∀ (s : State) (ops : List Token),
    exec (mk ops) s = .next { s with fault := some (.unimplementedOpcode op) }
  fatal : ∀ (s t u : State) (ops : List Token), exec (mk ops) s = .next t → step t ≠ .next u

/-- What R140 (with the table of R52) says of CACHE: its record, the effect of each code, its faults in
their order, and that codes 0 and 2 clear the line its own ON-mode fetch filled. -/
structure CacheRule : Prop where
  decodes : ∀ code : Token, commaFree code = true →
    decode (.text ("CACHE".toList ++ ',' :: code)) = .ok (.cache [code])
  codeOff : ∀ (s : State) (code : Token), Denotes code 0 →
    ∃ t, exec (.cache [code]) s = .next t ∧ (∀ i : Nat, lineAt i t = .invalid) ∧
      t = { s with pc := s.pc + 1, mode := .off, lines := t.lines
                   trace := s.trace ++ [.notify "Cache OFF".toList, .snapshot s.x] }
  codeOn : ∀ (s : State) (code : Token), Denotes code 1 →
    exec (.cache [code]) s = .next { s with pc := s.pc + 1, mode := .on
                                            trace := s.trace ++ [.notify "Cache ON".toList, .snapshot s.x] }
  codeFlush : ∀ (s : State) (code : Token), Denotes code 2 →
    ∃ t, exec (.cache [code]) s = .next t ∧ (∀ i : Nat, lineAt i t = .invalid) ∧
      t = { s with pc := s.pc + 1, lines := t.lines
                   trace := s.trace ++ [.notify "Cache FLUSHED".toList, .snapshot s.x] }
  countFault : ∀ (s : State) (ops : List Token), ops.length ≠ 1 →
    exec (.cache ops) s =
      .next { s with fault := some (.operandCountMismatch "CACHE".toList ops.length) }
  operandFault : ∀ (s : State) (code : Token), NoInteger code →
    exec (.cache [code]) s = .next { s with fault := some (.invalidOperand code) }
  codeFault : ∀ (s : State) (code : Token) (c : Int), Denotes code c → c ≠ 0 → c ≠ 1 → c ≠ 2 →
    exec (.cache [code]) s = .next { s with fault := some (.invalidCacheCode c) }
  ownFetch : ∀ (s : State) (code : Token), Running s → s.mode = .on →
    0 ≤ s.pc → s.pc < s.cfg.memCapacity → lookup s.pc s = none → commaFree code = true →
    backing s.pc s = .text ("CACHE".toList ++ ',' :: code) →
    (Denotes code 0 → ∃ t, step s = .next t ∧ (∀ i : Nat, lineAt i t = .invalid) ∧
      t.trace = s.trace ++ [.cacheFill s.pc, .notify "Cache OFF".toList, .snapshot s.x]) ∧
    (Denotes code 2 → ∃ t, step s = .next t ∧ (∀ i : Nat, lineAt i t = .invalid) ∧
      t.trace = s.trace ++ [.cacheFill s.pc, .notify "Cache FLUSHED".toList, .snapshot s.x])

/-- What R141 says of HALT: its three forms (R73), its effect whatever its operands, the fill its own
fetch leaves, and that no step follows. -/
structure HaltRule : Prop where
  decodesSentinel : decode (.int 0) = .ok (.halt []) ∧ decode (.text "0".toList) = .ok (.halt [])
  decodesText : ∀ ops : List Token, (∀ o ∈ ops, commaFree o = true) →
    decode (.text (joinCommas ("HALT".toList :: ops))) = .ok (.halt ops)
  halts : ∀ (s : State) (ops : List Token), exec (.halt ops) s = .next { s with halted := true }
  terminal : ∀ (s t u : State) (ops : List Token), exec (.halt ops) s = .next t → step t ≠ .next u
  ownFetch : ∀ (s : State) (ops : List Token), Running s → s.mode = .on →
    0 ≤ s.pc → s.pc < s.cfg.memCapacity → lookup s.pc s = none →
    decode (backing s.pc s) = .ok (.halt ops) →
    ∃ t, step s = .next t ∧ lookup s.pc t = some (backing s.pc s) ∧
      t = { s with halted := true, lines := t.lines, trace := s.trace ++ [.cacheFill s.pc] }

/-- What R44 to R46 say of a load of the cell at `a`. -/
structure LoadRule (a : Int) (s : State) : Prop where
  outside : ¬ (0 ≤ a ∧ a < s.cfg.memCapacity) → loadCell a s = .error (.outOfBounds a)
  off : 0 ≤ a → a < s.cfg.memCapacity → s.mode = .off → loadCell a s = .ok (backing a s, s)
  hit : ∀ v : Cell, 0 ≤ a → a < s.cfg.memCapacity → s.mode = .on →
    lineAt (a % s.cfg.cacheLines).toNat s = .valid (a / s.cfg.cacheLines) v →
    loadCell a s = .ok (v, { s with trace := s.trace ++ [.cacheHit a] })
  miss : 0 ≤ a → a < s.cfg.memCapacity → s.mode = .on →
    (∀ v : Cell, lineAt (a % s.cfg.cacheLines).toNat s ≠ .valid (a / s.cfg.cacheLines) v) →
    ∃ t, loadCell a s = .ok (backing a s, t) ∧
      t = { s with lines := t.lines, trace := s.trace ++ [.cacheFill a] } ∧
      lineAt (a % s.cfg.cacheLines).toNat t = .valid (a / s.cfg.cacheLines) (backing a s) ∧
      ∀ i : Nat, i ≠ (a % s.cfg.cacheLines).toNat → lineAt i t = lineAt i s

/-- What R46 to R48 say of a store of `v` to the cell at `a`: the cell holds `v`, every other cell
is as before, the line of `a` is overwritten in ON mode and no line is touched in OFF mode, and
every other field, the trace among them, is as before. -/
structure StoreRule (a : Int) (v : Cell) (s : State) : Prop where
  outside : ¬ (0 ≤ a ∧ a < s.cfg.memCapacity) → storeCell a v s = .error (.outOfBounds a)
  inside : 0 ≤ a → a < s.cfg.memCapacity → ∃ t, storeCell a v s = .ok t ∧
    t = { s with mem := t.mem, lines := t.lines } ∧
    backing a t = v ∧ (∀ b : Int, 0 ≤ b → b ≠ a → backing b t = backing b s) ∧
    (s.mode = .off → t.lines = s.lines) ∧
    (s.mode = .on →
      lineAt (a % s.cfg.cacheLines).toNat t = .valid (a / s.cfg.cacheLines) v ∧
      ∀ i : Nat, i ≠ (a % s.cfg.cacheLines).toNat → lineAt i t = lineAt i s)

end Sys2Proof.Machine
end

