-- ==== Sys2Proof/Certificates/Slice0/Obligations.lean ====
section
/-! DEFINITION. The statements for the provers.  Each docstring names the rule of spec/ the statement formalises; a clause that rests on a choice of the model names its log entry. -/

open Sys2Proof Sys2Proof.Machine

/-! ## Instructions -/

/-- R102: ADD's record, its wrapped sum with everything it leaves alone, and its faults in order. -/
def Obligations.AddFollowsItsRule : Prop :=
  ThreeRegisterRule "ADD".toList .add (fun a b => wrapValue (a + b))

/-- R103: ADDI, for every immediate of the grammar. -/
def Obligations.AddiFollowsItsRule : Prop := AddiRule

/-- R104: SUB. -/
def Obligations.SubFollowsItsRule : Prop :=
  ThreeRegisterRule "SUB".toList .sub (fun a b => wrapValue (a - b))

/-- R105: SLT, a signed comparison. -/
def Obligations.SltFollowsItsRule : Prop :=
  ThreeRegisterRule "SLT".toList .slt (fun a b => if a < b then 1 else 0)

/-- R120: J. -/
def Obligations.JumpFollowsItsRule : Prop := JumpRule

/-- R121, R122, R130, R131: the four opcodes without a meaning raise `UnimplementedOpcode`. -/
def Obligations.UnimplementedOpcodesRaise : Prop :=
  UnimplementedRule "BNE".toList .bne ∧ UnimplementedRule "JAL".toList .jal ∧
    UnimplementedRule "LW".toList .lw ∧ UnimplementedRule "SW".toList .sw

/-- R140: CACHE, with the effects of R52's table. -/
def Obligations.CacheFollowsItsRule : Prop := CacheRule

/-- R141: HALT. -/
def Obligations.HaltFollowsItsRule : Prop := HaltRule

/-- R78 to R80 and, for CACHE's code, R52 and R140 together: an instruction with a meaning raises
nothing exactly when it is well formed, whatever the state. -/
def Obligations.RaisesNothingIffWellFormed : Prop :=
  ∀ (i : Instr) (s : State), i.commaFree = true → s.fault = none →
    (∀ ops, i ≠ .bne ops) → (∀ ops, i ≠ .jal ops) → (∀ ops, i ≠ .lw ops) → (∀ ops, i ≠ .sw ops) →
    ∃ t, exec i s = .next t ∧ (t.fault = none ↔ i.wellFormed = true)

/-- R100, R101: the four ALU functions, on the integers the words stand for; where the exact result is in
range, wrapping leaves it. -/
def Obligations.AluFunctionsWrap : Prop :=
  ∀ (a b : Word) (n : Int),
    (aluAdd a b).toInt = wrapValue (a.toInt + b.toInt) ∧
    (aluSub a b).toInt = wrapValue (a.toInt - b.toInt) ∧
    (aluAddi a n).toInt = wrapValue (a.toInt + n) ∧
    (aluSlt a b).toInt = (if a.toInt < b.toInt then 1 else 0) ∧
    (-2 ^ 31 ≤ n → n < 2 ^ 31 → wrapValue n = n)

/-! ## Records: decoding and encoding -/

/-- Decoding an instruction's record gives the instruction back, for every instruction whose operands
are pieces of a record, the well-formed ones among them. -/
def Obligations.DecodeOfEncode : Prop :=
  (∀ i : Instr, i.wellFormed = true → i.commaFree = true) ∧
    ∀ i : Instr, i.commaFree = true → decode (encode i) = .ok i

/-- A text record that decodes to an instruction is that instruction's own record, but for the text
sentinel: no two text records of different content are read as one instruction. -/
def Obligations.EncodeOfDecode : Prop :=
  ∀ (s : Token) (i : Instr), s ≠ "0".toList → decode (.text s) = .ok i →
    encode i = .text s ∧ i.commaFree = true

/-- R72, R75, R82, R85: a cell decodes to an instruction exactly when its first token is in the
vocabulary, and otherwise the decoder names that token; a nonzero integer is never an instruction. -/
def Obligations.VocabularyDecides : Prop :=
  (∀ c : Cell, (∃ i, decode c = .ok i) ↔ isValid (decodeRecord c) = true) ∧
  (∀ c : Cell, isValid (decodeRecord c) = false →
    decode c = .error (.invalidOpcode (decodeRecord c).op)) ∧
  (∀ w : Word, w ≠ 0 → decode (.int w) = .error (.invalidOpcode (showInt w.toInt)))

/-- R80: the integer operands are exactly the tokens of the grammar, with the value it gives them. -/
def Obligations.IntegerOperandGrammar : Prop :=
  (∀ (tok : Token) (n : Int), intOperand tok = .ok n ↔ Denotes tok n) ∧
  (∀ tok : Token, NoInteger tok → intOperand tok = .error (.invalidOperand tok))

/-- R79: the register operands are exactly the thirty-two names. -/
def Obligations.RegisterOperandNames : Prop :=
  (∀ (tok : Token) (i : RegIdx), regOperand tok = .ok i ↔ tok = 'R' :: showNat i.val) ∧
  (∀ tok : Token, NamesNoRegister tok → regOperand tok = .error (.unknownRegister tok))

/-- R13 with R80: an integer operand reads back the decimal rendering of every integer. -/
def Obligations.ShownIntegersReadBack : Prop :=
  ∀ n : Int, intOperand (showInt n) = .ok n

/-- Records written out from the encodings of R77 decode to the instructions they stand for. -/
def Obligations.WrittenRecordsDecode : Prop :=
  decode (.text "ADD,R3,R1,R2".toList) = .ok (.add ["R3".toList, "R1".toList, "R2".toList]) ∧
  decode (.text "ADDI,R1,R0,-3".toList) = .ok (.addi ["R1".toList, "R0".toList, "-3".toList]) ∧
  decode (.text "J,2".toList) = .ok (.j ["2".toList]) ∧
  decode (.text "BNE,R1,R2,3".toList) = .ok (.bne ["R1".toList, "R2".toList, "3".toList]) ∧
  decode (.text "LW,R1,0(R2)".toList) = .ok (.lw ["R1".toList, "0(R2)".toList]) ∧
  decode (.text "CACHE,1".toList) = .ok (.cache ["1".toList]) ∧
  decode (.int 0) = .ok (.halt [])

/-! ## Registers, memory, cache -/

/-- R22, R23: the named register ports.  A name outside the thirty-two fails and changes nothing. -/
def Obligations.RegisterPorts : Prop :=
  (∀ (s : State) (i : RegIdx), readNamed (regName i) s = .ok (readReg i s)) ∧
  (∀ (s : State) (i : RegIdx) (v : Word), ∃ t, writeNamed (regName i) v s = .ok t ∧
    t = { s with x := t.x } ∧ readReg i t = v ∧ ∀ j : RegIdx, j ≠ i → readReg j t = readReg j s) ∧
  (∀ (s : State) (name : Token) (v : Word), NamesNoRegister name →
    readNamed name s = .error (.unknownRegister name) ∧
    writeNamed name v s = .error (.unknownRegister name))

/-- R44, R45, R46: the load. -/
def Obligations.LoadFollowsItsRule : Prop := ∀ (a : Int) (s : State), LoadRule a s

/-- R46, R47: the store, on a memory in its canonical form. -/
def Obligations.StoreFollowsItsRule : Prop :=
  ∀ (a : Int) (v : Cell) (s : State), Memory.wf s.cfg.memCapacity s.mem → StoreRule a v s

/-- R47, R60: a load of the cell a store wrote gives the stored value in either mode, and the next
fetch of that cell reads it.  That the host's calls act on a HALTED or FAULTED core is the model's
choice (notes/assumptions/8.md). -/
def Obligations.StoreThenLoad : Prop :=
  ∀ (a : Int) (v : Cell) (s : State), Memory.wf s.cfg.memCapacity s.mem →
    0 ≤ a → a < s.cfg.memCapacity →
    (hostStore a v s).1 = .ok () ∧
    (hostLoad a (hostStore a v s).2).1 = .ok v ∧
    (s.pc = a → ∃ t, fetch (hostStore a v s).2 = .ok (v, t))

/-- R44 to R46 with R53: under the invariant a load returns the backing cell, hit or miss.  That the
host's load acts on a HALTED or FAULTED core is the model's choice (notes/assumptions/8.md). -/
def Obligations.LoadReturnsBackingCell : Prop :=
  ∀ (a : Int) (s : State), Inv s → 0 ≤ a → a < s.cfg.memCapacity →
    (hostLoad a s).1 = .ok (backing a s)

/-- R61: after code 0 or code 2 the next ON-mode load of any cell misses and refills from memory. -/
def Obligations.ClearedCacheMissesNext : Prop :=
  ∀ (a : Int) (code : Token) (s t : State), Denotes code 0 ∨ Denotes code 2 →
    exec (.cache [code]) s = .next t → 0 ≤ a → a < s.cfg.memCapacity →
    ∃ u, loadCell a { t with mode := .on } = .ok (backing a s, u) ∧
      u.trace = t.trace ++ [.cacheFill a] ∧
      lineAt (a % s.cfg.cacheLines).toNat u = .valid (a / s.cfg.cacheLines) (backing a s)

/-- R40: two memories in canonical form that read alike at every address are equal data. -/
def Obligations.CanonicalMemoriesAreEqual : Prop :=
  ∀ (n : Nat) (m k : List (Nat × Cell)), Memory.wf n m → Memory.wf n k →
    (∀ a < n, sparseGet (.int 0) m a = sparseGet (.int 0) k a) → m = k

/-! ## Host moves -/

/-- R192, with R63, R64 and R193 for a core that has run: `load_program` on a core in any run state.  That
a program too large sets the fault of a HALTED core too follows R172 (notes/assumptions/7.md), and that
a record may be a nonzero integer is the model's choice (notes/assumptions/14.md). -/
def Obligations.LoadProgramFollowsItsRule : Prop :=
  ∀ (r : List Cell) (s : State), Memory.wf s.cfg.memCapacity s.mem →
    (s.cfg.memCapacity < r.length → s.fault = none →
      loadProgram r s = (.error (.programTooLarge r.length),
        { s with fault := some (.programTooLarge r.length) })) ∧
    (r.length ≤ s.cfg.memCapacity →
      loadProgram r s = (.ok (), { s with mem := (loadProgram r s).2.mem }) ∧
      (∀ (i : Nat) (h : i < r.length), backing i (loadProgram r s).2 = r[i]) ∧
      (∀ a : Int, (r.length : Int) ≤ a → backing a (loadProgram r s).2 = backing a s))

/-- R172: a component-interface call outside memory, on a RUNNING or a HALTED core, gives the caller the
error, sets `fault` and nothing else, and no step follows.  For a HALTED core R172 is followed against
R35 (notes/assumptions/7.md). -/
def Obligations.HostCallOutsideMemoryFaults : Prop :=
  ∀ (a : Int) (v : Cell) (s : State), s.fault = none → ¬ (0 ≤ a ∧ a < s.cfg.memCapacity) →
    hostLoad a s = (.error (.outOfBounds a), { s with fault := some (.outOfBounds a) }) ∧
    hostStore a v s = (.error (.outOfBounds a), { s with fault := some (.outOfBounds a) }) ∧
    ∀ t : State, step { s with fault := some (.outOfBounds a) } ≠ .next t

/-- R64: a load in ON mode of a cell that `load_program` wrote under a valid line returns the old
cached value. -/
def Obligations.HostWriteLeavesStaleLine : Prop :=
  ∀ (r : List Cell) (a : Int) (v : Cell) (s : State), s.mode = .on → 0 ≤ a → a < s.cfg.memCapacity →
    r.length ≤ s.cfg.memCapacity →
    lineAt (a % s.cfg.cacheLines).toNat s = .valid (a / s.cfg.cacheLines) v →
    (hostLoad a (loadProgram r s).2).1 = .ok v ∧
    (hostLoad a (loadProgram r s).2).2.trace = s.trace ++ [.cacheHit a]

/-! ## The step -/

/-- R161: where the cell read at the PC decodes to an instruction, the step is that instruction's
`exec` over the state the fetch left: the same state in OFF mode or (but for the event) on a hit,
and the line of the PC filled on a miss. -/
def Obligations.StepRunsTheDecodedInstruction : Prop :=
  ∀ (s t : State) (c : Cell) (i : Instr), Running s → 0 ≤ s.pc → s.pc < s.cfg.memCapacity →
    loadCell s.pc s = .ok (c, t) → decode c = .ok i → step s = exec i t

/-- R161 with R102, R77: an ADD record at the PC, its registers written by name, takes the whole step
its rules give it, in OFF mode. -/
def Obligations.AddRecordTakesItsStep : Prop :=
  ∀ (s : State) (d a b : RegIdx), Running s → 0 ≤ s.pc → s.pc < s.cfg.memCapacity → s.mode = .off →
    backing s.pc s = .text ("ADD,".toList ++ regName d ++ ',' :: regName a ++ ',' :: regName b) →
    ∃ t, step s = .next t ∧
      RegisterResult d (wrapValue ((readReg a s).toInt + (readReg b s).toInt)) s t

/-- How the host places an instruction (notes/assumptions/10.md): on a RUNNING core with its PC in memory,
the cell a table word stands for is what the next step fetches and runs. -/
def Obligations.PlacedWordIsFetched : Prop :=
  ∀ (s : State) (nbits w : Nat) (i : Instr), Running s → Memory.wf s.cfg.memCapacity s.mem →
    0 ≤ s.pc → s.pc < s.cfg.memCapacity → decodeTableWord nbits w = some i →
    ∃ t, fetch (s.withFetchWord nbits w) = .ok (cellOfTableWord nbits w, t) ∧
      step (s.withFetchWord nbits w) = exec i t

/-- R156, R82: an opcode outside the vocabulary raises `InvalidOpcode` over the state the fetch left. -/
def Obligations.StepRaisesInvalidOpcode : Prop :=
  ∀ (s t : State) (c : Cell), Running s → 0 ≤ s.pc → s.pc < s.cfg.memCapacity →
    loadCell s.pc s = .ok (c, t) → isValid (decodeRecord c) = false →
    step s = .next { t with fault := some (.invalidOpcode (decodeRecord c).op) }

/-- R152: a fetch outside memory is fatal and changes nothing else. -/
def Obligations.StepOutsideMemoryFaults : Prop :=
  ∀ s : State, Running s → ¬ (0 ≤ s.pc ∧ s.pc < s.cfg.memCapacity) →
    step s = .next { s with fault := some (.programCounterOutOfBounds s.pc) }

/-- R150: exactly the RUNNING core has a step.  That a step of another core answers an
`Outcome.fault` of its own name is the model's choice (notes/assumptions/2.md). -/
def Obligations.OnlyRunningCoresStep : Prop :=
  ∀ s : State,
    (Running s ↔ ∃ t, step s = .next t) ∧
    (s.halted = true → step s = .fault .alreadyHalted) ∧
    (∀ e, s.halted = false → s.fault = some e → step s = .fault (.alreadyFaulted e))

/-- R162, R189, R170: a run that has come to a HALTED or FAULTED core stays in that very state. -/
def Obligations.TerminalStatesAreFinal : Prop :=
  ∀ (s : State) (k m : Nat), ¬ Running (hostRun k s) → hostRun (k + m) s = hostRun k s

/-- R73, R55: a RUNNING core whose PC is at a cell holding `Int 0` halts there, in either mode. -/
def Obligations.UnwrittenCellHalts : Prop :=
  ∀ s : State, Inv s → Running s → 0 ≤ s.pc → s.pc < s.cfg.memCapacity → backing s.pc s = .int 0 →
    ∃ t, step s = .next t ∧ t.halted = true ∧ t.fault = none ∧ t.pc = s.pc ∧ t.x = s.x ∧
      t.mode = s.mode ∧ t.mem = s.mem

/-- R62, R131, R8: no step writes memory or a parameter. -/
def Obligations.StepWritesNoMemory : Prop :=
  ∀ s t : State, step s = .next t →
    (∀ a : Int, backing a t = backing a s) ∧ t.mem = s.mem ∧ t.cfg = s.cfg

/-- R173: a step that raises keeps its fetch's fill and cache event and has no other effect, and no step
follows it. -/
def Obligations.FaultsArePrecise : Prop :=
  ∀ (s t : State) (e : FatalError), step s = .next t → t.fault = some e →
    t = { s with fault := some e, lines := t.lines, trace := t.trace } ∧
    ((¬ (0 ≤ s.pc ∧ s.pc < s.cfg.memCapacity) ∧ t.lines = s.lines ∧ t.trace = s.trace) ∨
      ∃ c u, loadCell s.pc s = .ok (c, u) ∧ t.lines = u.lines ∧ t.trace = u.trace) ∧
    ∀ u : State, step t ≠ .next u

/-- R159, R120, R141: the PC after a step is unchanged when the step halts or raises, `4 * n` after a
J whose target denotes `n`, and one further after any other instruction. -/
def Obligations.ProgramCounterAfterStep : Prop :=
  ∀ s t : State, step s = .next t →
    ((t.halted = true ∨ t.fault ≠ none) ∧ t.pc = s.pc) ∨
    (t.halted = false ∧ t.fault = none ∧
      ∃ c u i, loadCell s.pc s = .ok (c, u) ∧ decode c = .ok i ∧
        (((∀ ops, i ≠ .j ops) ∧ t.pc = s.pc + 1) ∨
          ∃ target n, i = .j [target] ∧ Denotes target n ∧ t.pc = n * 4))

/-- R29, R160: a step appends to the trace at most its fetch's cache event (ON mode only), then at
most one notification, then a snapshot of the registers after it; the snapshot is there exactly when
the step neither halts nor raises. -/
def Obligations.TraceOfAStep : Prop :=
  ∀ s t : State, step s = .next t →
    ∃ fetchEvents notifications : List Event,
      (fetchEvents = [] ∨
        (s.mode = .on ∧ (fetchEvents = [.cacheHit s.pc] ∨ fetchEvents = [.cacheFill s.pc]))) ∧
      (notifications = [] ∨ ∃ text, notifications = [.notify text]) ∧
      ((t.halted = false ∧ t.fault = none ∧
          t.trace = s.trace ++ fetchEvents ++ notifications ++ [.snapshot t.x]) ∨
        ((t.halted = true ∨ t.fault ≠ none) ∧ t.trace = s.trace ++ fetchEvents))

/-- R25, R34: only a CACHE instruction with code 0 or 1 can change the cache mode. -/
def Obligations.OnlyCacheChangesTheMode : Prop :=
  ∀ s t : State, step s = .next t → t.mode ≠ s.mode →
    ∃ c u code, loadCell s.pc s = .ok (c, u) ∧ decode c = .ok (.cache [code]) ∧
      ((t.mode = .off ∧ Denotes code 0) ∨ (t.mode = .on ∧ Denotes code 1))

/-- R26, R34, R155: a step halts exactly when it fetched HALT or the sentinel. -/
def Obligations.OnlyHaltHalts : Prop :=
  ∀ s t : State, step s = .next t →
    (t.halted = true ↔
      ∃ c u ops, loadCell s.pc s = .ok (c, u) ∧ decode c = .ok (.halt ops))

/-- R23: a step changes at most one register, and then it is the destination its fetched ADD, ADDI,
SUB or SLT names first. -/
def Obligations.StepWritesAtMostOneRegister : Prop :=
  ∀ s t : State, step s = .next t → t.x ≠ s.x →
    ∃ c u i d rest, loadCell s.pc s = .ok (c, u) ∧ decode c = .ok i ∧
      i.operands = regName d :: rest ∧
      (i = .add i.operands ∨ i = .addi i.operands ∨ i = .sub i.operands ∨ i = .slt i.operands) ∧
      ∀ j : RegIdx, j ≠ d → readReg j t = readReg j s

/-! ## Reset, invariants, reachable states -/

/-- R32, R190, R8: what a construction with any capacity of at least 1 leaves, and that the reset state
is the construction with the default capacity. -/
def Obligations.ResetValues : Prop :=
  State.reset = State.construct (Config.ofCapacity 1024) ∧
  ∀ n : Nat, 1 ≤ n → ∃ s, hostConstruct n = some s ∧
    (∀ i : RegIdx, readReg i s = 0) ∧ s.pc = 0 ∧ (∀ a : Int, backing a s = .int 0) ∧
    (∀ i : Nat, lineAt i s = .invalid) ∧ s.mode = .off ∧ s.halted = false ∧ s.fault = none ∧
    s.trace = [] ∧ s.cfg.memCapacity = n ∧ s.cfg.cacheLines = n

/-- The reset state meets the invariant and is not both halted and faulted. -/
def Obligations.ResetMeetsTheInvariant : Prop := Inv State.reset ∧ TerminalExclusive State.reset

/-- Every admissible construction, with any program loaded, meets the invariant and is not both halted
and faulted.  That a program may hold a nonzero integer is the model's choice
(notes/assumptions/14.md). -/
def Obligations.LoadedCoreMeetsTheInvariant : Prop :=
  ∀ (c : Config) (r : List Cell), c.wf →
    Inv (loadProgram r (State.construct c)).2 ∧ TerminalExclusive (loadProgram r (State.construct c)).2

/-- Every step keeps the invariant, and leaves no state both halted and faulted (R35). -/
def Obligations.StepKeepsTheInvariant : Prop :=
  ∀ s t : State, Inv s → step s = .next t → Inv t ∧ TerminalExclusive t

/-- Calls of the component interface keep the invariant (R65, R53), and those that do not raise on a
HALTED core keep R35.  What a call does on a HALTED or FAULTED core is the model's choice: a raise
notes/assumptions/7.md, a call that raises nothing notes/assumptions/8.md. -/
def Obligations.HostCallsKeepTheInvariant : Prop :=
  ∀ (a : Int) (v : Cell) (s : State),
    (Inv s → Inv (hostLoad a s).2 ∧ Inv (hostStore a v s).2) ∧
    (NoRaiseAfterHalt a s → TerminalExclusive s →
      TerminalExclusive (hostLoad a s).2 ∧ TerminalExclusive (hostStore a v s).2)

/-- R53: coherence in every reachable state, and a valid line stands for a cell of memory.  Which
states are reachable rests on the model's choice of what a host call does on a HALTED or FAULTED core
(notes/assumptions/7.md and 8.md) and of what a program may hold (notes/assumptions/14.md). -/
def Obligations.ReachableStatesAreCoherent : Prop :=
  ∀ s : State, Reachable s → ∀ (i : Nat) (t : Int) (v : Cell),
    (lineAt i s = .valid t v →
      inBounds (t * s.cfg.cacheLines + i) s ∧ v = backing (t * s.cfg.cacheLines + i) s) ∧
    (s.mode = .off → lineAt i s = .invalid)

/-- No state that steps and host calls reach is both halted and faulted (10_state.md section 3), calls
that raise on a HALTED core left out: there the model follows R172 (notes/assumptions/7.md).  That the
other calls act on a HALTED or FAULTED core is the model's choice (notes/assumptions/8.md), and so is
what a program may hold (notes/assumptions/14.md). -/
def Obligations.TerminalStatesAreExclusive : Prop :=
  ∀ s : State, ReachableBeforeLateRaise s → TerminalExclusive s

/-- 92_eei_decisions.md D7 with R53: the cache never shows in registers, PC, memory, halt or fault.
Two states that meet the invariant and differ in nothing but the cache step alike. -/
def Obligations.CacheIsTransparent : Prop :=
  ∀ s t s' : State, Inv s → Inv t → SameButCache s t → step s = .next s' →
    ∃ t', step t = .next t' ∧ SameButCache s' t'

/-- R170, R30: a FAULTED core is final with its fault, and a host move that raises on it gives the caller
the error and changes nothing.  That the first fault stands against R172's "each sets `fault`" is the
model's reading (notes/assumptions/7.md). -/
def Obligations.FaultedCoreKeepsItsFault : Prop :=
  ∀ (a : Int) (v : Cell) (r : List Cell) (e : FatalError) (s : State), s.fault = some e →
    (¬ (0 ≤ a ∧ a < s.cfg.memCapacity) →
      hostLoad a s = (.error (.outOfBounds a), s) ∧ hostStore a v s = (.error (.outOfBounds a), s)) ∧
    (s.cfg.memCapacity < r.length → loadProgram r s = (.error (.programTooLarge r.length), s)) ∧
    ∀ k : Nat, (hostRun k s) = s
end

