-- ==== Sys2Proof/Laws/State.lean ====
section
/-! SUPPORT. What each state update does to each field, one lemma per field per update. -/

namespace Sys2Proof.Machine

@[simp] theorem writeReg_x (i : RegIdx) (v : Word) (s : State) : (writeReg i v s).x = s.x.set i.val v := rfl
@[simp] theorem writeReg_pc (i : RegIdx) (v : Word) (s : State) : (writeReg i v s).pc = s.pc := rfl
@[simp] theorem writeReg_mem (i : RegIdx) (v : Word) (s : State) : (writeReg i v s).mem = s.mem := rfl
@[simp] theorem writeReg_lines (i : RegIdx) (v : Word) (s : State) : (writeReg i v s).lines = s.lines := rfl
@[simp] theorem writeReg_mode (i : RegIdx) (v : Word) (s : State) : (writeReg i v s).mode = s.mode := rfl
@[simp] theorem writeReg_halted (i : RegIdx) (v : Word) (s : State) : (writeReg i v s).halted = s.halted := rfl
@[simp] theorem writeReg_fault (i : RegIdx) (v : Word) (s : State) : (writeReg i v s).fault = s.fault := rfl
@[simp] theorem writeReg_trace (i : RegIdx) (v : Word) (s : State) : (writeReg i v s).trace = s.trace := rfl
@[simp] theorem writeReg_cfg (i : RegIdx) (v : Word) (s : State) : (writeReg i v s).cfg = s.cfg := rfl

@[simp] theorem readPc_eq (s : State) : readPc s = s.pc := rfl

@[simp] theorem writePc_x (v : Int) (s : State) : (writePc v s).x = s.x := rfl
@[simp] theorem writePc_pc (v : Int) (s : State) : (writePc v s).pc = v := rfl
@[simp] theorem writePc_mem (v : Int) (s : State) : (writePc v s).mem = s.mem := rfl
@[simp] theorem writePc_lines (v : Int) (s : State) : (writePc v s).lines = s.lines := rfl
@[simp] theorem writePc_mode (v : Int) (s : State) : (writePc v s).mode = s.mode := rfl
@[simp] theorem writePc_halted (v : Int) (s : State) : (writePc v s).halted = s.halted := rfl
@[simp] theorem writePc_fault (v : Int) (s : State) : (writePc v s).fault = s.fault := rfl
@[simp] theorem writePc_trace (v : Int) (s : State) : (writePc v s).trace = s.trace := rfl
@[simp] theorem writePc_cfg (v : Int) (s : State) : (writePc v s).cfg = s.cfg := rfl

@[simp] theorem emit_x (e : Event) (s : State) : (emit e s).x = s.x := rfl
@[simp] theorem emit_pc (e : Event) (s : State) : (emit e s).pc = s.pc := rfl
@[simp] theorem emit_mem (e : Event) (s : State) : (emit e s).mem = s.mem := rfl
@[simp] theorem emit_lines (e : Event) (s : State) : (emit e s).lines = s.lines := rfl
@[simp] theorem emit_mode (e : Event) (s : State) : (emit e s).mode = s.mode := rfl
@[simp] theorem emit_halted (e : Event) (s : State) : (emit e s).halted = s.halted := rfl
@[simp] theorem emit_fault (e : Event) (s : State) : (emit e s).fault = s.fault := rfl
@[simp] theorem emit_trace (e : Event) (s : State) : (emit e s).trace = s.trace ++ [e] := rfl
@[simp] theorem emit_cfg (e : Event) (s : State) : (emit e s).cfg = s.cfg := rfl

@[simp] theorem setBacking_x (a : Int) (v : Cell) (s : State) : (setBacking a v s).x = s.x := rfl
@[simp] theorem setBacking_pc (a : Int) (v : Cell) (s : State) : (setBacking a v s).pc = s.pc := rfl
@[simp] theorem setBacking_mem (a : Int) (v : Cell) (s : State) : (setBacking a v s).mem = sparseSet (.int 0) s.mem a.toNat v := rfl
@[simp] theorem setBacking_lines (a : Int) (v : Cell) (s : State) : (setBacking a v s).lines = s.lines := rfl
@[simp] theorem setBacking_mode (a : Int) (v : Cell) (s : State) : (setBacking a v s).mode = s.mode := rfl
@[simp] theorem setBacking_halted (a : Int) (v : Cell) (s : State) : (setBacking a v s).halted = s.halted := rfl
@[simp] theorem setBacking_fault (a : Int) (v : Cell) (s : State) : (setBacking a v s).fault = s.fault := rfl
@[simp] theorem setBacking_trace (a : Int) (v : Cell) (s : State) : (setBacking a v s).trace = s.trace := rfl
@[simp] theorem setBacking_cfg (a : Int) (v : Cell) (s : State) : (setBacking a v s).cfg = s.cfg := rfl

@[simp] theorem setLine_x (a : Int) (v : Cell) (s : State) : (setLine a v s).x = s.x := rfl
@[simp] theorem setLine_pc (a : Int) (v : Cell) (s : State) : (setLine a v s).pc = s.pc := rfl
@[simp] theorem setLine_mem (a : Int) (v : Cell) (s : State) : (setLine a v s).mem = s.mem := rfl
@[simp] theorem setLine_lines (a : Int) (v : Cell) (s : State) : (setLine a v s).lines = sparseSet .invalid s.lines (lineIndex a s) (.valid (lineTag a s) v) := rfl
@[simp] theorem setLine_mode (a : Int) (v : Cell) (s : State) : (setLine a v s).mode = s.mode := rfl
@[simp] theorem setLine_halted (a : Int) (v : Cell) (s : State) : (setLine a v s).halted = s.halted := rfl
@[simp] theorem setLine_fault (a : Int) (v : Cell) (s : State) : (setLine a v s).fault = s.fault := rfl
@[simp] theorem setLine_trace (a : Int) (v : Cell) (s : State) : (setLine a v s).trace = s.trace := rfl
@[simp] theorem setLine_cfg (a : Int) (v : Cell) (s : State) : (setLine a v s).cfg = s.cfg := rfl

@[simp] theorem clearLines_x (s : State) : (clearLines s).x = s.x := rfl
@[simp] theorem clearLines_pc (s : State) : (clearLines s).pc = s.pc := rfl
@[simp] theorem clearLines_mem (s : State) : (clearLines s).mem = s.mem := rfl
@[simp] theorem clearLines_lines (s : State) : (clearLines s).lines = [] := rfl
@[simp] theorem clearLines_mode (s : State) : (clearLines s).mode = s.mode := rfl
@[simp] theorem clearLines_halted (s : State) : (clearLines s).halted = s.halted := rfl
@[simp] theorem clearLines_fault (s : State) : (clearLines s).fault = s.fault := rfl
@[simp] theorem clearLines_trace (s : State) : (clearLines s).trace = s.trace := rfl
@[simp] theorem clearLines_cfg (s : State) : (clearLines s).cfg = s.cfg := rfl

@[simp] theorem raise_x (e : FatalError) (s : State) : (raise e s).x = s.x := rfl
@[simp] theorem raise_pc (e : FatalError) (s : State) : (raise e s).pc = s.pc := rfl
@[simp] theorem raise_mem (e : FatalError) (s : State) : (raise e s).mem = s.mem := rfl
@[simp] theorem raise_lines (e : FatalError) (s : State) : (raise e s).lines = s.lines := rfl
@[simp] theorem raise_mode (e : FatalError) (s : State) : (raise e s).mode = s.mode := rfl
@[simp] theorem raise_halted (e : FatalError) (s : State) : (raise e s).halted = s.halted := rfl
@[simp] theorem raise_fault (e : FatalError) (s : State) : (raise e s).fault = some e := rfl
@[simp] theorem raise_trace (e : FatalError) (s : State) : (raise e s).trace = s.trace := rfl
@[simp] theorem raise_cfg (e : FatalError) (s : State) : (raise e s).cfg = s.cfg := rfl

@[simp] theorem advance_x (s : State) : (advance s).x = s.x := rfl
@[simp] theorem advance_pc (s : State) : (advance s).pc = s.pc + 1 := rfl
@[simp] theorem advance_mem (s : State) : (advance s).mem = s.mem := rfl
@[simp] theorem advance_lines (s : State) : (advance s).lines = s.lines := rfl
@[simp] theorem advance_mode (s : State) : (advance s).mode = s.mode := rfl
@[simp] theorem advance_halted (s : State) : (advance s).halted = s.halted := rfl
@[simp] theorem advance_fault (s : State) : (advance s).fault = s.fault := rfl
@[simp] theorem advance_trace (s : State) : (advance s).trace = s.trace := rfl
@[simp] theorem advance_cfg (s : State) : (advance s).cfg = s.cfg := rfl

@[simp] theorem snapshot_x (s : State) : (snapshot s).x = s.x := rfl
@[simp] theorem snapshot_pc (s : State) : (snapshot s).pc = s.pc := rfl
@[simp] theorem snapshot_mem (s : State) : (snapshot s).mem = s.mem := rfl
@[simp] theorem snapshot_lines (s : State) : (snapshot s).lines = s.lines := rfl
@[simp] theorem snapshot_mode (s : State) : (snapshot s).mode = s.mode := rfl
@[simp] theorem snapshot_halted (s : State) : (snapshot s).halted = s.halted := rfl
@[simp] theorem snapshot_fault (s : State) : (snapshot s).fault = s.fault := rfl
@[simp] theorem snapshot_trace (s : State) : (snapshot s).trace = s.trace ++ [.snapshot s.x] := rfl
@[simp] theorem snapshot_cfg (s : State) : (snapshot s).cfg = s.cfg := rfl

@[simp] theorem enterHalted_x (s : State) : (enterHalted s).x = s.x := rfl
@[simp] theorem enterHalted_pc (s : State) : (enterHalted s).pc = s.pc := rfl
@[simp] theorem enterHalted_mem (s : State) : (enterHalted s).mem = s.mem := rfl
@[simp] theorem enterHalted_lines (s : State) : (enterHalted s).lines = s.lines := rfl
@[simp] theorem enterHalted_mode (s : State) : (enterHalted s).mode = s.mode := rfl
@[simp] theorem enterHalted_halted (s : State) : (enterHalted s).halted = true := rfl
@[simp] theorem enterHalted_fault (s : State) : (enterHalted s).fault = s.fault := rfl
@[simp] theorem enterHalted_trace (s : State) : (enterHalted s).trace = s.trace := rfl
@[simp] theorem enterHalted_cfg (s : State) : (enterHalted s).cfg = s.cfg := rfl

end Sys2Proof.Machine
end

