-- ==== Sys2Proof/Laws/Memory.lean ====
section
/-! SUPPORT. Sparse arrays, and memory and cache lines built on them: reading after writing, and the canonical form. -/

namespace Sys2Proof.Machine

variable {α : Type} [DecidableEq α] {d v : α} {l : List (Nat × α)} {a b n : Nat}

/-! ## Reading after writing -/

omit [DecidableEq α] in
theorem sparseGet_of_lt (h : ∀ p ∈ l, a < p.1) : sparseGet d l a = d := by
  cases l with
  | nil => rfl
  | cons p r =>
    have hp : a < p.1 := h p (by simp)
    simp [sparseGet, hp]

theorem sparseGet_sparseCons_same (h : ∀ p ∈ l, a < p.1) :
    sparseGet d (sparseCons d a v l) a = v := by
  unfold sparseCons
  split
  · next hv => rw [sparseGet_of_lt h, hv]
  · simp [sparseGet]

theorem sparseGet_sparseSet_same (h : l.Pairwise (fun p q => p.1 < q.1)) :
    sparseGet d (sparseSet d l a v) a = v := by
  induction l with
  | nil => exact sparseGet_sparseCons_same (by simp)
  | cons p r ih =>
    obtain ⟨k, w⟩ := p
    obtain ⟨hk, hr⟩ := List.pairwise_cons.mp h
    simp only [sparseSet]
    split
    · next hak =>
      refine sparseGet_sparseCons_same fun q hq => ?_
      rcases List.mem_cons.mp hq with rfl | hq
      · exact hak
      · exact Nat.lt_trans hak (hk q hq)
    · split
      · next hak => subst hak; exact sparseGet_sparseCons_same hk
      · next h1 h2 => simp [sparseGet, h1, h2, ih hr]

/-- A value that is not the default is read back whatever the array looks like. -/
theorem sparseGet_sparseSet_same_of_ne (hv : v ≠ d) :
    sparseGet d (sparseSet d l a v) a = v := by
  induction l with
  | nil => simp [sparseSet, sparseCons, hv, sparseGet]
  | cons p r ih =>
    obtain ⟨k, w⟩ := p
    simp only [sparseSet, sparseCons, if_neg hv]
    split
    · simp [sparseGet]
    · split
      · simp [sparseGet]
      · next h1 h2 => simp [sparseGet, h1, h2, ih]

theorem sparseGet_sparseSet_other (h : l.Pairwise (fun p q => p.1 < q.1)) (hab : b ≠ a) :
    sparseGet d (sparseSet d l a v) b = sparseGet d l b := by
  induction l with
  | nil =>
    simp only [sparseSet, sparseCons]
    split
    · rfl
    · simp [sparseGet, hab]
  | cons p r ih =>
    obtain ⟨k, w⟩ := p
    obtain ⟨hk, hr⟩ := List.pairwise_cons.mp h
    simp only [sparseSet]
    split
    · next hak =>
      unfold sparseCons
      split
      · rfl
      · simp only [sparseGet, if_neg hab]
        split
        · rw [if_pos (by omega)]
        · rfl
    · split
      · next hak =>
        subst hak
        simp only [sparseGet, if_neg hab]
        unfold sparseCons
        split
        · split
          · exact sparseGet_of_lt fun q hq => Nat.lt_trans (by assumption) (hk q hq)
          · rfl
        · simp [sparseGet, hab]
      · next h1 h2 => simp only [sparseGet, ih hr]

/-- A value that is not the default leaves the other keys alone whatever the array looks like. -/
theorem sparseGet_sparseSet_other_of_ne (hv : v ≠ d) (hab : b ≠ a) :
    sparseGet d (sparseSet d l a v) b = sparseGet d l b := by
  induction l with
  | nil => simp [sparseSet, sparseCons, hv, sparseGet, hab]
  | cons p r ih =>
    obtain ⟨k, w⟩ := p
    simp only [sparseSet, sparseCons, if_neg hv]
    split
    · simp only [sparseGet, if_neg hab]
      split
      · rw [if_pos (by omega)]
      · rfl
    · split
      · next hak => subst hak; simp [sparseGet, hab]
      · simp only [sparseGet, ih]

/-! ## The canonical form -/

theorem mem_sparseCons {p : Nat × α} (h : p ∈ sparseCons d a v l) :
    (p = (a, v) ∧ v ≠ d) ∨ p ∈ l := by
  unfold sparseCons at h
  split at h
  · exact .inr h
  · next hv =>
    rcases List.mem_cons.mp h with rfl | h
    · exact .inl ⟨rfl, hv⟩
    · exact .inr h

theorem mem_sparseSet {p : Nat × α} (h : p ∈ sparseSet d l a v) :
    (p = (a, v) ∧ v ≠ d) ∨ p ∈ l := by
  induction l with
  | nil => exact mem_sparseCons h
  | cons q r ih =>
    obtain ⟨k, w⟩ := q
    simp only [sparseSet] at h
    split at h
    · exact mem_sparseCons h
    · split at h
      · exact (mem_sparseCons h).imp id (List.mem_cons_of_mem _)
      · rcases List.mem_cons.mp h with rfl | h
        · exact .inr (by simp)
        · exact (ih h).imp id (List.mem_cons_of_mem _)

theorem sparseCons_pairwise (h : l.Pairwise (fun p q => p.1 < q.1)) (ha : ∀ p ∈ l, a < p.1) :
    (sparseCons d a v l).Pairwise (fun p q => p.1 < q.1) := by
  unfold sparseCons
  split
  · exact h
  · exact List.pairwise_cons.mpr ⟨ha, h⟩

theorem sparseSet_pairwise (h : l.Pairwise (fun p q => p.1 < q.1)) :
    (sparseSet d l a v).Pairwise (fun p q => p.1 < q.1) := by
  induction l with
  | nil => exact sparseCons_pairwise .nil (by simp)
  | cons p r ih =>
    obtain ⟨k, w⟩ := p
    obtain ⟨hk, hr⟩ := List.pairwise_cons.mp h
    simp only [sparseSet]
    split
    · next hak =>
      refine sparseCons_pairwise h fun q hq => ?_
      rcases List.mem_cons.mp hq with rfl | hq
      · exact hak
      · exact Nat.lt_trans hak (hk q hq)
    · split
      · next hak => subst hak; exact sparseCons_pairwise hr hk
      · next h1 h2 =>
        refine List.pairwise_cons.mpr ⟨fun q hq => ?_, ih hr⟩
        rcases mem_sparseSet hq with ⟨rfl, -⟩ | hq
        · show k < a; omega
        · exact hk q hq

/-! ## Memory -/

theorem Memory.wf_nil : Memory.wf n [] := ⟨.nil, fun _ h => absurd h List.not_mem_nil⟩

theorem Memory.wf_set {m : List (Nat × Cell)} {c : Cell} (h : Memory.wf n m) (ha : a < n) :
    Memory.wf n (sparseSet (.int 0) m a c) := by
  refine ⟨sparseSet_pairwise h.1, fun p hp => ?_⟩
  rcases mem_sparseSet hp with ⟨rfl, hv⟩ | hp
  · exact ⟨ha, hv⟩
  · exact h.2 p hp

theorem Memory.wf_writeCells {r : List Cell} {m : List (Nat × Cell)} (h : Memory.wf n m)
    (ha : a + r.length ≤ n) : Memory.wf n (writeCells a r m) := by
  induction r generalizing a m with
  | nil => exact h
  | cons c cs ih =>
    simp only [List.length_cons] at ha
    exact ih (Memory.wf_set h (by omega)) (by omega)

theorem Lines.wf_nil : Lines.wf n [] := ⟨.nil, fun _ h => absurd h List.not_mem_nil⟩

theorem Lines.wf_set {m : List (Nat × Line)} {e : Line} (h : Lines.wf n m) (ha : a < n) :
    Lines.wf n (sparseSet .invalid m a e) := by
  refine ⟨sparseSet_pairwise h.1, fun p hp => ?_⟩
  rcases mem_sparseSet hp with ⟨rfl, hv⟩ | hp
  · exact ⟨ha, hv⟩
  · exact h.2 p hp

/-! ## Memory and lines of a state -/

theorem backing_setBacking_same {s : State} {x : Int} {c : Cell}
    (h : s.mem.Pairwise (fun p q => p.1 < q.1)) : backing x (setBacking x c s) = c :=
  sparseGet_sparseSet_same h

theorem backing_setBacking_other {s : State} {x y : Int} {c : Cell}
    (h : s.mem.Pairwise (fun p q => p.1 < q.1)) (hx : 0 ≤ x) (hy : 0 ≤ y) (hxy : y ≠ x) :
    backing y (setBacking x c s) = backing y s :=
  sparseGet_sparseSet_other h (by omega)

theorem lineAt_setLine_same {s : State} {x : Int} {c : Cell} :
    lineAt (lineIndex x s) (setLine x c s) = .valid (lineTag x s) c :=
  sparseGet_sparseSet_same_of_ne (by simp)

theorem lineAt_setLine_other {s : State} {x : Int} {c : Cell} {i : Nat} (h : i ≠ lineIndex x s) :
    lineAt i (setLine x c s) = lineAt i s :=
  sparseGet_sparseSet_other_of_ne (by simp) h

theorem lineAt_clearLines {s : State} {i : Nat} : lineAt i (clearLines s) = .invalid := rfl

theorem setBacking_wf {s : State} {x : Int} {c : Cell} (h : Memory.wf s.cfg.memCapacity s.mem)
    (hx : inBounds x s) : Memory.wf s.cfg.memCapacity (setBacking x c s).mem :=
  Memory.wf_set h (by obtain ⟨h1, h2⟩ := hx; omega)

theorem lineIndex_lt {s : State} {x : Int} (h : 1 ≤ s.cfg.cacheLines) :
    lineIndex x s < s.cfg.cacheLines := by
  have h1 := Int.emod_nonneg x (b := s.cfg.cacheLines) (by omega)
  have h2 := Int.emod_lt_of_pos x (b := s.cfg.cacheLines) (by omega)
  unfold lineIndex
  omega

theorem setLine_wf {s : State} {x : Int} {c : Cell} (h : Lines.wf s.cfg.cacheLines s.lines)
    (hc : 1 ≤ s.cfg.cacheLines) : Lines.wf s.cfg.cacheLines (setLine x c s).lines :=
  Lines.wf_set h (lineIndex_lt hc)

theorem reset_memory_wf : Memory.wf State.reset.cfg.memCapacity State.reset.mem := by decide

theorem reset_lines_wf : Lines.wf State.reset.cfg.cacheLines State.reset.lines := by decide

/-! ## Every memory operation keeps the canonical forms -/

theorem loadCell_wf {s t : State} {x : Int} {c : Cell} (e : loadCell x s = .ok (c, t))
    (hl : Lines.wf s.cfg.cacheLines s.lines) (hc : 1 ≤ s.cfg.cacheLines) :
    t.mem = s.mem ∧ t.cfg = s.cfg ∧ Lines.wf t.cfg.cacheLines t.lines := by
  unfold loadCell at e
  split at e
  · split at e
    · cases e; exact ⟨rfl, rfl, hl⟩
    · split at e
      · cases e; exact ⟨rfl, rfl, hl⟩
      · cases e; exact ⟨rfl, rfl, setLine_wf hl hc⟩
  · cases e

theorem storeCell_wf {s t : State} {x : Int} {c : Cell} (e : storeCell x c s = .ok t)
    (hm : Memory.wf s.cfg.memCapacity s.mem) (hl : Lines.wf s.cfg.cacheLines s.lines)
    (hc : 1 ≤ s.cfg.cacheLines) :
    t.cfg = s.cfg ∧ Memory.wf t.cfg.memCapacity t.mem ∧ Lines.wf t.cfg.cacheLines t.lines := by
  unfold storeCell at e
  split at e
  · next hb =>
    split at e
    · cases e; exact ⟨rfl, setBacking_wf hm hb, hl⟩
    · cases e; exact ⟨rfl, setBacking_wf hm hb, setLine_wf (s := setBacking x c s) hl hc⟩
  · cases e

theorem hostRaise_mem {s : State} {e : FatalError} : (hostRaise e s).mem = s.mem := by
  unfold hostRaise; split <;> rfl

theorem hostRaise_lines {s : State} {e : FatalError} : (hostRaise e s).lines = s.lines := by
  unfold hostRaise; split <;> rfl

theorem hostRaise_cfg {s : State} {e : FatalError} : (hostRaise e s).cfg = s.cfg := by
  unfold hostRaise; split <;> rfl

theorem hostRaise_halted {s : State} {e : FatalError} : (hostRaise e s).halted = s.halted := by
  unfold hostRaise; split <;> rfl

/-- A host move that raises sets the fault of a core that holds none. -/
theorem hostRaise_of_none {s : State} {e : FatalError} (h : s.fault = none) :
    hostRaise e s = { s with fault := some e } := by
  unfold hostRaise; rw [h]; rfl

/-- A host move that raises leaves a faulted core alone. -/
theorem hostRaise_of_some {s : State} {e f : FatalError} (h : s.fault = some f) :
    hostRaise e s = s := by
  unfold hostRaise; rw [h]

/-- All a host load can do. -/
theorem hostLoad_cases (a : Int) (s : State) :
    (∃ c t, loadCell a s = .ok (c, t) ∧ hostLoad a s = (.ok c, t)) ∨
    (∃ e, loadCell a s = .error e ∧ hostLoad a s = (.error e, hostRaise e s)) := by
  unfold hostLoad
  split
  · next c t h => exact .inl ⟨c, t, h, rfl⟩
  · next e h => exact .inr ⟨e, h, rfl⟩

/-- All a host store can do. -/
theorem hostStore_cases (a : Int) (v : Cell) (s : State) :
    (∃ t, storeCell a v s = .ok t ∧ hostStore a v s = (.ok (), t)) ∨
    (∃ e, storeCell a v s = .error e ∧ hostStore a v s = (.error e, hostRaise e s)) := by
  unfold hostStore
  split
  · next t h => exact .inl ⟨t, h, rfl⟩
  · next e h => exact .inr ⟨e, h, rfl⟩

/-- All loading a program can do. -/
theorem loadProgram_cases (r : List Cell) (s : State) :
    (r.length ≤ s.cfg.memCapacity ∧
      loadProgram r s = (.ok (), { s with mem := writeCells 0 r s.mem })) ∨
    (s.cfg.memCapacity < r.length ∧ loadProgram r s =
      (.error (.programTooLarge r.length), hostRaise (.programTooLarge r.length) s)) := by
  unfold loadProgram
  split
  · next h => exact .inr ⟨h, rfl⟩
  · next h => exact .inl ⟨Nat.le_of_not_lt h, rfl⟩

theorem loadProgram_wf {s : State} {r : List Cell} (h : Memory.wf s.cfg.memCapacity s.mem) :
    Memory.wf (loadProgram r s).2.cfg.memCapacity (loadProgram r s).2.mem := by
  rcases loadProgram_cases r s with ⟨hn, e⟩ | ⟨-, e⟩ <;> rw [e]
  · exact Memory.wf_writeCells (a := 0) h (by simpa using hn)
  · rw [hostRaise_mem, hostRaise_cfg]; exact h

end Sys2Proof.Machine
end

