-- ==== Sys2Proof/Laws/Text.lean ====
section
/-! SUPPORT. Records cut and put together again, and register names read back. -/

namespace Sys2Proof.Machine

theorem splitCommas_ne_nil (s : Token) : splitCommas s ≠ [] := by
  induction s with
  | nil => simp [splitCommas]
  | cons c cs ih =>
    simp only [splitCommas]
    split
    · simp
    · split <;> simp

theorem joinCommas_cons {t : Token} {ts : List Token} (h : ts ≠ []) :
    joinCommas (t :: ts) = t ++ ',' :: joinCommas ts := by
  cases ts with
  | nil => exact absurd rfl h
  | cons u us => rfl

theorem joinCommas_cons_char {c : Char} {t : Token} {ts : List Token} :
    joinCommas ((c :: t) :: ts) = c :: joinCommas (t :: ts) := by
  cases ts <;> rfl

/-- Cutting at the commas loses nothing. -/
theorem joinCommas_splitCommas (s : Token) : joinCommas (splitCommas s) = s := by
  induction s with
  | nil => rfl
  | cons c cs ih =>
    simp only [splitCommas]
    split
    · next hc => rw [joinCommas_cons (splitCommas_ne_nil cs), ih, hc]; rfl
    · split
      · next hn => exact absurd hn (splitCommas_ne_nil cs)
      · next t ts hs => rw [joinCommas_cons_char, ← hs, ih]

/-- A comma-free text is one token. -/
theorem splitCommas_of_commaFree {t : Token} (h : commaFree t = true) : splitCommas t = [t] := by
  induction t with
  | nil => rfl
  | cons c cs ih =>
    simp only [commaFree, List.all_cons, Bool.and_eq_true, bne_iff_ne] at h
    simp only [splitCommas, if_neg h.1, ih h.2]

/-- The first token ends at the first comma. -/
theorem splitCommas_append {t rest : Token} (h : commaFree t = true) :
    splitCommas (t ++ ',' :: rest) = t :: splitCommas rest := by
  induction t with
  | nil => simp [splitCommas]
  | cons c cs ih =>
    simp only [commaFree, List.all_cons, Bool.and_eq_true, bne_iff_ne] at h
    simp only [List.cons_append, splitCommas, if_neg h.1, ih h.2]

/-- Comma-free tokens put together are cut into the same tokens. -/
theorem splitCommas_joinCommas {ts : List Token} (hne : ts ≠ [])
    (h : ∀ t ∈ ts, commaFree t = true) : splitCommas (joinCommas ts) = ts := by
  induction ts with
  | nil => exact absurd rfl hne
  | cons t us ih =>
    cases us with
    | nil => exact splitCommas_of_commaFree (h t (by simp))
    | cons u us =>
      rw [joinCommas_cons (by simp), splitCommas_append (h t (by simp)),
        ih (by simp) fun v hv => h v (List.mem_cons_of_mem _ hv)]

/-- The name of a register is read back as that register. -/
@[simp] theorem parseReg_regName (i : RegIdx) : parseReg (regName i) = some i := by
  revert i; decide

theorem regName_of_parseReg {tok : Token} {i : RegIdx} (h : parseReg tok = some i) :
    tok = regName i := by
  have := List.find?_some h
  exact (by simpa using this : regName i = tok).symm

theorem commaFree_regName (i : RegIdx) : commaFree (regName i) = true := by
  revert i; decide

@[simp] theorem regOperand_regName (i : RegIdx) : regOperand (regName i) = .ok i := by
  simp [regOperand]

end Sys2Proof.Machine
end

