-- ==== Sys2Proof/Laws/Ops.lean ====
section
/-! SUPPORT. For each shared operation, one lemma that says everything it can do. -/

namespace Sys2Proof.Machine

/-! ## Memory and cache -/

theorem lookup_eq_some {a : Int} {v : Cell} {s : State} :
    lookup a s = some v ↔ lineAt (lineIndex a s) s = .valid (lineTag a s) v := by
  unfold lookup
  split
  · next h => simp [h]
  · next t w h =>
    rw [h]
    constructor
    · intro e
      split at e
      · next ht => cases e; rw [ht]
      · cases e
    · intro e; cases e; simp

theorem lookup_eq_none {a : Int} {s : State} :
    lookup a s = none ↔ ∀ v, lineAt (lineIndex a s) s ≠ .valid (lineTag a s) v := by
  constructor
  · intro h v hv
    rw [← lookup_eq_some, h] at hv
    cases hv
  · intro h
    cases hl : lookup a s with
    | none => rfl
    | some v => exact absurd (lookup_eq_some.mp hl) (h v)

theorem loadCell_ok {a : Int} {c : Cell} {s t : State} (h : loadCell a s = .ok (c, t)) :
    inBounds a s ∧
      ((s.mode = .off ∧ c = backing a s ∧ t = s) ∨
        (s.mode = .on ∧ lookup a s = some c ∧ t = emit (.cacheHit a) s) ∨
        (s.mode = .on ∧ lookup a s = none ∧ c = backing a s ∧
          t = emit (.cacheFill a) (setLine a (backing a s) s))) := by
  unfold loadCell at h
  split at h
  · next hb =>
    refine ⟨hb, ?_⟩
    split at h
    · next hm => cases h; exact .inl ⟨hm, rfl, rfl⟩
    · next hm =>
      split at h
      · next v hv => cases h; exact .inr (.inl ⟨hm, hv, rfl⟩)
      · next hv => cases h; exact .inr (.inr ⟨hm, hv, rfl, rfl⟩)
  · cases h

theorem loadCell_error {a : Int} {e : FatalError} {s : State} (h : loadCell a s = .error e) :
    ¬ inBounds a s ∧ e = .outOfBounds a := by
  unfold loadCell at h
  split at h
  · split at h
    · cases h
    · split at h <;> cases h
  · next hb => cases h; exact ⟨hb, rfl⟩

/-- A load changes nothing but the lines and the trace. -/
theorem loadCell_frame {a : Int} {c : Cell} {s t : State} (h : loadCell a s = .ok (c, t)) :
    t = { s with lines := t.lines, trace := t.trace } := by
  obtain ⟨-, ⟨-, -, rfl⟩ | ⟨-, -, rfl⟩ | ⟨-, -, -, rfl⟩⟩ := loadCell_ok h <;> rfl

theorem storeCell_ok {a : Int} {v : Cell} {s t : State} (h : storeCell a v s = .ok t) :
    inBounds a s ∧
      ((s.mode = .off ∧ t = setBacking a v s) ∨
        (s.mode = .on ∧ t = setLine a v (setBacking a v s))) := by
  unfold storeCell at h
  split at h
  · next hb =>
    refine ⟨hb, ?_⟩
    split at h
    · next hm => cases h; exact .inl ⟨hm, rfl⟩
    · next hm => cases h; exact .inr ⟨hm, rfl⟩
  · cases h

theorem storeCell_error {a : Int} {v : Cell} {e : FatalError} {s : State}
    (h : storeCell a v s = .error e) : ¬ inBounds a s ∧ e = .outOfBounds a := by
  unfold storeCell at h
  split at h
  · split at h <;> cases h
  · next hb => cases h; exact ⟨hb, rfl⟩

theorem fetch_ok {c : Cell} {s t : State} (h : fetch s = .ok (c, t)) :
    inBounds s.pc s ∧ loadCell s.pc s = .ok (c, t) := by
  unfold fetch at h
  split at h
  · next hb => exact ⟨hb, h⟩
  · cases h

theorem fetch_error {e : FatalError} {s : State} (h : fetch s = .error e) :
    ¬ inBounds s.pc s ∧ e = .programCounterOutOfBounds s.pc := by
  unfold fetch at h
  split at h
  · next hb => exact absurd hb (loadCell_error h).1
  · next hb => cases h; exact ⟨hb, rfl⟩

theorem cacheControl_ok {c : Int} {s t : State} (h : cacheControl c s = .ok t) :
    (c = 0 ∧ t = emit (.notify "Cache OFF".toList) { clearLines s with mode := .off }) ∨
      (c = 1 ∧ t = emit (.notify "Cache ON".toList) { s with mode := .on }) ∨
      (c = 2 ∧ t = emit (.notify "Cache FLUSHED".toList) (clearLines s)) := by
  unfold cacheControl at h
  split at h
  · next hc => cases h; exact .inl ⟨hc, rfl⟩
  · split at h
    · next hc => cases h; exact .inr (.inl ⟨hc, rfl⟩)
    · split at h
      · next hc => cases h; exact .inr (.inr ⟨hc, rfl⟩)
      · cases h

theorem cacheControl_error {c : Int} {e : FatalError} {s : State} (h : cacheControl c s = .error e) :
    c ≠ 0 ∧ c ≠ 1 ∧ c ≠ 2 ∧ e = .invalidCacheCode c := by
  unfold cacheControl at h
  split at h
  · cases h
  · split at h
    · cases h
    · split at h
      · cases h
      · cases h; exact ⟨by assumption, by assumption, by assumption, rfl⟩

/-! ## Registers -/

theorem readReg_writeReg_same {i : RegIdx} {v : Word} {s : State} :
    readReg i (writeReg i v s) = v := by
  simp [readReg]

theorem readReg_writeReg_other {i j : RegIdx} {v : Word} {s : State} (h : j ≠ i) :
    readReg j (writeReg i v s) = readReg j s := by
  have hne : i.val ≠ j.val := fun e => h (Fin.ext e.symm)
  simp [readReg, Vector.getElem_set_ne _ _ hne]

/-! ## Operands -/

theorem regOperand_ok {tok : Token} {i : RegIdx} : regOperand tok = .ok i ↔ parseReg tok = some i := by
  unfold regOperand
  split <;> simp_all

theorem intOperand_ok {tok : Token} {n : Int} : intOperand tok = .ok n ↔ parseInt tok = some n := by
  unfold intOperand
  split <;> simp_all

theorem threeRegs_ok {op : Token} {ops : List Token} {o : ThreeRegs} (h : threeRegs op ops = .ok o) :
    ∃ rd rs rt, ops = [rd, rs, rt] ∧ parseReg rd = some o.rd ∧ parseReg rs = some o.rs ∧
      parseReg rt = some o.rt := by
  unfold threeRegs at h
  split at h
  · next rd rs rt =>
    refine ⟨rd, rs, rt, rfl, ?_⟩
    cases hs : regOperand rs with
    | error e => simp [hs, bind, Except.bind] at h
    | ok s =>
      cases ht : regOperand rt with
      | error e => simp [hs, ht, bind, Except.bind] at h
      | ok t =>
        cases hd : regOperand rd with
        | error e => simp [hs, ht, hd, bind, Except.bind] at h
        | ok d =>
          simp only [hs, ht, hd, bind, Except.bind, pure, Except.pure, Except.ok.injEq] at h
          subst h
          exact ⟨regOperand_ok.mp hd, regOperand_ok.mp hs, regOperand_ok.mp ht⟩
  · cases h

theorem regImm_ok {op : Token} {ops : List Token} {o : RegImm} (h : regImm op ops = .ok o) :
    ∃ rt rs imm, ops = [rt, rs, imm] ∧ parseReg rt = some o.rt ∧ parseReg rs = some o.rs ∧
      parseInt imm = some o.imm := by
  unfold regImm at h
  split at h
  · next rt rs imm =>
    refine ⟨rt, rs, imm, rfl, ?_⟩
    cases hs : regOperand rs with
    | error e => simp [hs, bind, Except.bind] at h
    | ok s =>
      cases hi : intOperand imm with
      | error e => simp [hs, hi, bind, Except.bind] at h
      | ok n =>
        cases hd : regOperand rt with
        | error e => simp [hs, hi, hd, bind, Except.bind] at h
        | ok d =>
          simp only [hs, hi, hd, bind, Except.bind, pure, Except.pure, Except.ok.injEq] at h
          subst h
          exact ⟨regOperand_ok.mp hd, regOperand_ok.mp hs, intOperand_ok.mp hi⟩
  · cases h

theorem oneInt_ok {op : Token} {ops : List Token} {n : Int} (h : oneInt op ops = .ok n) :
    ∃ tok, ops = [tok] ∧ parseInt tok = some n := by
  unfold oneInt at h
  split at h
  · next tok => exact ⟨tok, rfl, intOperand_ok.mp h⟩
  · cases h

/-! ## The end of an instruction, and what an instruction can do -/

theorem finish_cases (s : State) (r : Except FatalError State) :
    (∃ t, r = .ok t ∧ finish s r = .next (snapshot (advance t))) ∨
      (∃ e, r = .error e ∧ finish s r = .next (raise e s)) := by
  cases r with
  | ok t => exact .inl ⟨t, rfl, rfl⟩
  | error e => exact .inr ⟨e, rfl, rfl⟩

theorem finishRedirected_cases (s : State) (r : Except FatalError State) :
    (∃ t, r = .ok t ∧ finishRedirected s r = .next (snapshot t)) ∨
      (∃ e, r = .error e ∧ finishRedirected s r = .next (raise e s)) := by
  cases r with
  | ok t => exact .inl ⟨t, rfl, rfl⟩
  | error e => exact .inr ⟨e, rfl, rfl⟩

/-- The five things an instruction can do to the state its fetch left. -/
inductive ExecCase (i : Instr) (s : State) : State → Prop where
  | raised (e : FatalError) : ExecCase i s (raise e s)
  | wrote (d : RegIdx) (v : Word) (rest : List Token) (operands : i.operands = regName d :: rest)
      (opcode : i = .add i.operands ∨ i = .addi i.operands ∨ i = .sub i.operands ∨ i = .slt i.operands) :
      ExecCase i s (snapshot (advance (writeReg d v s)))
  | jumped (target : Token) (n : Int) (opcode : i = .j [target]) (value : parseInt target = some n) :
      ExecCase i s (snapshot (writePc (n * 4) s))
  | controlled (code : Token) (c : Int) (t : State) (opcode : i = .cache [code])
      (value : parseInt code = some c) (effect : cacheControl c s = .ok t) :
      ExecCase i s (snapshot (advance t))
  | halted (ops : List Token) (opcode : i = .halt ops) : ExecCase i s (enterHalted s)

theorem registerRule_cases {i : Instr} {op : Token} {f : Word → Word → Word} {s : State}
    (opcode : i = .add i.operands ∨ i = .addi i.operands ∨ i = .sub i.operands ∨ i = .slt i.operands) :
    ∃ t, registerRule op f i.operands s = .next t ∧ ExecCase i s t := by
  unfold registerRule
  cases h : threeRegs op i.operands with
  | ok o =>
    obtain ⟨rd, rs, rt, ho, hd, -, -⟩ := threeRegs_ok h
    exact ⟨_, rfl, .wrote o.rd _ [rs, rt] (by rw [ho, regName_of_parseReg hd]) opcode⟩
  | error e => exact ⟨_, rfl, .raised e⟩

/-- Every instruction answers a next state, and it is one of the five. -/
theorem exec_cases (i : Instr) (s : State) : ∃ t, exec i s = .next t ∧ ExecCase i s t := by
  cases i with
  | add ops => exact registerRule_cases (i := .add ops) (.inl rfl)
  | sub ops => exact registerRule_cases (i := .sub ops) (.inr (.inr (.inl rfl)))
  | slt ops => exact registerRule_cases (i := .slt ops) (.inr (.inr (.inr rfl)))
  | addi ops =>
    simp only [exec, execAddi]
    cases h : regImm "ADDI".toList ops with
    | ok o =>
      obtain ⟨rt, rs, imm, rfl, hd, -, -⟩ := regImm_ok h
      exact ⟨_, rfl, .wrote o.rt _ [rs, imm] (by rw [← regName_of_parseReg hd]; rfl) (.inr (.inl rfl))⟩
    | error e => exact ⟨_, rfl, .raised e⟩
  | bne ops => exact ⟨_, rfl, .raised _⟩
  | jal ops => exact ⟨_, rfl, .raised _⟩
  | lw ops => exact ⟨_, rfl, .raised _⟩
  | sw ops => exact ⟨_, rfl, .raised _⟩
  | j ops =>
    simp only [exec, execJ]
    cases h : oneInt "J".toList ops with
    | ok n =>
      obtain ⟨tok, rfl, hv⟩ := oneInt_ok h
      exact ⟨_, rfl, .jumped tok n rfl hv⟩
    | error e => exact ⟨_, rfl, .raised e⟩
  | cache ops =>
    simp only [exec, execCache, bind, Except.bind]
    cases ho : oneInt "CACHE".toList ops with
    | error e => exact ⟨_, rfl, .raised e⟩
    | ok c =>
      obtain ⟨tok, rfl, hv⟩ := oneInt_ok ho
      dsimp only
      cases h : cacheControl c s with
      | ok t => exact ⟨_, rfl, .controlled tok c t rfl hv h⟩
      | error e => exact ⟨_, rfl, .raised e⟩
  | halt ops => exact ⟨_, rfl, .halted ops rfl⟩

end Sys2Proof.Machine
end

