-- ==== Sys2Proof/Laws/PerInstr.lean ====
section
/-! SUPPORT. Facts of the syntax, one lemma per instruction. -/

namespace Sys2Proof.Laws

/-- The opcode map (R76) sends an instruction's own first token and operands back to it. -/
def OpcodeMap.Statement (i : Instr) : Prop :=
  classify { op := i.opToken, operands := i.operands } = .ok i

theorem OpcodeMap.add (ops : List Token) : OpcodeMap.Statement (.add ops) := rfl
theorem OpcodeMap.addi (ops : List Token) : OpcodeMap.Statement (.addi ops) := rfl
theorem OpcodeMap.sub (ops : List Token) : OpcodeMap.Statement (.sub ops) := rfl
theorem OpcodeMap.slt (ops : List Token) : OpcodeMap.Statement (.slt ops) := rfl
theorem OpcodeMap.bne (ops : List Token) : OpcodeMap.Statement (.bne ops) := rfl
theorem OpcodeMap.j (ops : List Token) : OpcodeMap.Statement (.j ops) := rfl
theorem OpcodeMap.jal (ops : List Token) : OpcodeMap.Statement (.jal ops) := rfl
theorem OpcodeMap.lw (ops : List Token) : OpcodeMap.Statement (.lw ops) := rfl
theorem OpcodeMap.sw (ops : List Token) : OpcodeMap.Statement (.sw ops) := rfl
theorem OpcodeMap.cache (ops : List Token) : OpcodeMap.Statement (.cache ops) := rfl
theorem OpcodeMap.halt (ops : List Token) : OpcodeMap.Statement (.halt ops) := rfl

end Sys2Proof.Laws
end

