-- ==== Sys2Proof/Tests/Slice0.lean ====
section
/-! SUPPORT. The model's own tests.  Expected results are the examples, tables and programs of spec/95_test_vectors.md and the examples of the instruction rules. -/

namespace Sys2Proof.Tests

open Sys2Proof.Machine

/-! ## Helpers -/

/-- A text cell. -/
def record (s : String) : Cell := .text s.toList

/-- The next state of an outcome, or `d` where there is none. -/
def after (o : Host.Outcome State Fault Refusal) (d : State) : State :=
  match o with
  | .next t => t
  | .fault _ => d
  | .refused _ => d

/-- The outcome is a next state. -/
def isNext (o : Host.Outcome State Fault Refusal) : Bool :=
  match o with
  | .next _ => true
  | .fault _ => false
  | .refused _ => false

theorem next_of_isNext {o : Host.Outcome State Fault Refusal} (d : State) (h : isNext o = true) :
    o = .next (after o d) := by
  cases o with
  | next t => rfl
  | fault r => cases h
  | refused r => cases h

/-- A core after reset with `r1` and `r2` in R1 and R2 and one record in the cell at `pc`. -/
def coreAt (pc : Nat) (r1 r2 : Int) (c : Cell) : State :=
  { State.reset with
    pc := pc, mem := sparseSet (.int 0) [] pc c
    x := (State.reset.x.set 1 (wrap r1)).set 2 (wrap r2) }

/-- The same with the cache ON and line 5 holding cell 5. -/
def coreOn (pc : Nat) (c : Cell) : State :=
  { coreAt pc 0 0 c with mode := .on, lines := [(5, .valid 0 (.int 0))] }

/-- One step. -/
def one (s : State) : State := after (step s) s

/-! ## Decoding: every constructor, from the encodings of 30_encoding.md R77 -/

theorem test_decode_add : decode (record "ADD,R3,R1,R2") = .ok (.add ["R3".toList, "R1".toList, "R2".toList]) := by decide
theorem test_decode_addi : decode (record "ADDI,R1,R0,5") = .ok (.addi ["R1".toList, "R0".toList, "5".toList]) := by decide
theorem test_decode_sub : decode (record "SUB,R2,R0,R1") = .ok (.sub ["R2".toList, "R0".toList, "R1".toList]) := by decide
theorem test_decode_slt : decode (record "SLT,R3,R1,R2") = .ok (.slt ["R3".toList, "R1".toList, "R2".toList]) := by decide
theorem test_decode_bne : decode (record "BNE,R1,R2,3") = .ok (.bne ["R1".toList, "R2".toList, "3".toList]) := by decide
theorem test_decode_j : decode (record "J,2") = .ok (.j ["2".toList]) := by decide
theorem test_decode_jal : decode (record "JAL,5") = .ok (.jal ["5".toList]) := by decide
theorem test_decode_lw : decode (record "LW") = .ok (.lw []) := by decide
theorem test_decode_sw : decode (record "SW,R1,R2") = .ok (.sw ["R1".toList, "R2".toList]) := by decide
theorem test_decode_cache : decode (record "CACHE,1") = .ok (.cache ["1".toList]) := by decide
theorem test_decode_halt : decode (record "HALT,R1,junk") = .ok (.halt ["R1".toList, "junk".toList]) := by decide
theorem test_decode_sentinels : decode (.int 0) = .ok (.halt []) ∧ decode (record "0") = .ok (.halt []) := by decide

/-- Section 2's decoder table: what is in no vocabulary. -/
theorem test_decode_invalid :
    decode (.int 5) = .error (.invalidOpcode "5".toList) ∧
    decode (.int (-1)) = .error (.invalidOpcode "-1".toList) ∧
    decode (record "") = .error (.invalidOpcode []) ∧
    decode (record "add,R1,R2,R3") = .error (.invalidOpcode "add".toList) := by decide

/-- An empty piece is an empty token; no whitespace is trimmed (R74). -/
theorem test_decode_pieces :
    decode (record "ADDI,R1,R0,5,") = .ok (.addi ["R1".toList, "R0".toList, "5".toList, []]) ∧
    decode (record "ADD, R1,,R3") = .ok (.add [" R1".toList, [], "R3".toList]) := by decide

/-- The bytes 4A 2C 32, lowest first, are the characters `J`, `,`, `2`; zero bytes after them are padding. -/
theorem test_table_word_j :
    decodeTableWord 24 0x322C4A = some (.j ["2".toList]) ∧
    decodeTableWord 32 0x322C4A = some (.j ["2".toList]) ∧
    decodeTableWord 32 0 = some (.halt []) ∧ decodeTableWord 24 0x322C4B = none := by decide

/-- The bytes of `LW` run as the first instruction after reset. -/
theorem test_fetch_word_runs :
    (one (State.reset.withFetchWord 16 0x574C)).fault = some (.unimplementedOpcode "LW".toList) := by decide

theorem test_encode_addi :
    encode (.addi ["R1".toList, "R0".toList, "5".toList]) = record "ADDI,R1,R0,5" := by decide

/-! ## WellFormed: an ill-formed term for each check -/

theorem test_wf_accepts :
    Instr.wellFormed (.add ["R0".toList, "R31".toList, "R9".toList]) = true ∧
    Instr.wellFormed (.addi ["R0".toList, "R31".toList, "-007".toList]) = true ∧
    Instr.wellFormed (.cache ["+1".toList]) = true ∧ Instr.wellFormed (.halt ["junk".toList]) = true := by decide
theorem test_wf_count_three : Instr.wellFormed (.add ["R1".toList, "R2".toList]) = false := by decide
theorem test_wf_count_one : Instr.wellFormed (.j []) = false ∧ Instr.wellFormed (.cache ["1".toList, "2".toList]) = false := by decide
theorem test_wf_rd : Instr.wellFormed (.sub ["R32".toList, "R1".toList, "R2".toList]) = false := by decide
theorem test_wf_rs : Instr.wellFormed (.slt ["R1".toList, "R01".toList, "R2".toList]) = false := by decide
theorem test_wf_rt : Instr.wellFormed (.add ["R1".toList, "R2".toList, "r3".toList]) = false := by decide
theorem test_wf_imm : Instr.wellFormed (.addi ["R1".toList, "R0".toList, "0x10".toList]) = false := by decide
theorem test_wf_target : Instr.wellFormed (.j ["-".toList]) = false := by decide
theorem test_wf_code : Instr.wellFormed (.cache ["3".toList]) = false ∧ Instr.wellFormed (.cache ["on".toList]) = false := by decide
theorem test_wf_comma :
    Instr.wellFormed (.halt ["a,b".toList]) = false ∧ Instr.wellFormed (.bne [",".toList]) = false ∧
    Instr.wellFormed (.jal [",".toList]) = false ∧ Instr.wellFormed (.lw [",".toList]) = false ∧
    Instr.wellFormed (.sw [",".toList]) = false := by decide

/-! ## ALU (40_alu.md's examples and corner cases) -/

theorem test_add_example :
    let t := one (coreAt 0 5 10 (record "ADD,R3,R1,R2"))
    (readReg 3 t).toInt = 15 ∧ t.pc = 1 ∧ t.trace = [.snapshot t.x] := by decide
theorem test_add_wraps :
    (readReg 1 (one (coreAt 0 2147483647 1 (record "ADD,R1,R1,R2")))).toInt = -2147483648 := by decide
theorem test_addi_wraps :
    (readReg 0 (one (coreAt 0 1 0 (record "ADDI,R0,R1,-4294967297")))).toInt = 0 ∧
    (readReg 0 (one (coreAt 0 0 0 (record "ADDI,R0,R1,2147483648")))).toInt = -2147483648 := by decide
theorem test_addi_imm_before_rt :
    let t := one (coreAt 0 0 0 (record "ADDI,R99,R1,x"))
    t.fault = some (.invalidOperand "x".toList) ∧ t.pc = 0 ∧ t.trace = [] := by decide
theorem test_sub_example :
    (readReg 2 (one (coreAt 0 (-3) 0 (record "SUB,R2,R0,R1")))).toInt = 3 := by decide
theorem test_sub_wraps :
    (readReg 3 (one (coreAt 0 (-2147483648) 1 (record "SUB,R3,R1,R2")))).toInt = 2147483647 := by decide
theorem test_slt_signed :
    (readReg 3 (one (coreAt 0 (-2147483648) 2147483647 (record "SLT,R3,R1,R2")))).toInt = 1 ∧
    (readReg 3 (one (coreAt 0 0 (-1) (record "SLT,R3,R1,R2")))).toInt = 0 := by decide
theorem test_slt_rs_first :
    (one (coreAt 0 0 0 (record "SLT,R40,R41,R42"))).fault = some (.unknownRegister "R41".toList) := by decide

/-! ## Control transfer, loads and stores (41_control.md, 42_loadstore.md) -/

theorem test_j_scales : (one (coreAt 1 0 0 (record "J,2"))).pc = 8 ∧ (one (coreAt 0 0 0 (record "J,-1"))).pc = -4 := by decide
theorem test_j_to_itself :
    let t := one (coreAt 0 0 0 (record "J,0"))
    t.pc = 0 ∧ t.trace = [.snapshot t.x] := by decide
theorem test_bne_raises :
    let t := one (coreAt 2 0 0 (record "BNE,R1,R2,3"))
    t.fault = some (.unimplementedOpcode "BNE".toList) ∧ t.pc = 2 ∧ t.trace = [] := by decide
theorem test_jal_raises :
    (one (coreAt 2 0 0 (record "JAL,5"))).fault = some (.unimplementedOpcode "JAL".toList) := by decide
theorem test_lw_raises :
    (one (coreAt 0 0 0 (record "LW,R1,0(R2)"))).fault = some (.unimplementedOpcode "LW".toList) := by decide
theorem test_sw_raises :
    let s := coreAt 0 0 0 (record "SW,R1,R2")
    (one s).fault = some (.unimplementedOpcode "SW".toList) ∧ (one s).mem = s.mem := by decide

/-! ## System (43_system.md; section 2's cache controller and fetch tables) -/

theorem test_cache_off_clears_own_fill :
    let t := one (coreOn 9 (record "CACHE,0"))
    t.mode = .off ∧ t.lines = [] ∧
      t.trace = [.cacheFill 9, .notify "Cache OFF".toList, .snapshot t.x] := by decide
theorem test_cache_bad_code_keeps_lines :
    let t := one (coreOn 9 (record "CACHE,3"))
    t.fault = some (.invalidCacheCode 3) ∧ t.mode = .on ∧ lineAt 5 t = .valid 0 (.int 0) ∧
      lineAt 9 t = .valid 0 (record "CACHE,3") ∧ t.trace = [.cacheFill 9] := by decide
theorem test_halt_fills_and_stays :
    let t := one (coreOn 7 (.int 0))
    t.halted = true ∧ t.pc = 7 ∧ t.trace = [.cacheFill 7] ∧ lineAt 7 t = .valid 0 (.int 0) := by decide
theorem test_halt_ignores_operands : (one (coreAt 0 0 0 (record "HALT,R1,junk"))).halted = true := by decide
theorem test_fetch_hits : (one (coreOn 5 (.int 0))).trace = [.cacheHit 5] := by decide
theorem test_fetch_outside_memory :
    let t := one { coreOn 9 (.int 0) with pc := 1024 }
    t.fault = some (.programCounterOutOfBounds 1024) ∧ t.trace = [] ∧ t.pc = 1024 := by decide
theorem test_invalid_opcode_keeps_fill :
    let t := one (coreOn 7 (record "FOO"))
    t.fault = some (.invalidOpcode "FOO".toList) ∧ lineAt 7 t = .valid 0 (record "FOO") ∧
      t.trace = [.cacheFill 7] := by decide

/-! ## Load/store unit and host (section 2's vectors M3, M4, M7, M8; L1-7 with three cells) -/

theorem test_store_on_sets_line :
    let t := (hostStore 6 (.int 9) (coreOn 9 (.int 0))).2
    backing 6 t = .int 9 ∧ lineAt 6 t = .valid 0 (.int 9) ∧ t.trace = [] ∧
      (hostLoad 6 t).2.trace = [.cacheHit 6] := by decide
theorem test_load_outside_memory :
    (hostLoad 1024 State.reset).2.fault = some (.outOfBounds 1024) ∧
    (hostLoad (-1) State.reset).2.fault = some (.outOfBounds (-1)) ∧
    hostStore 1024 (.int 1) State.reset =
      (.error (.outOfBounds 1024), { State.reset with fault := some (.outOfBounds 1024) }) := ⟨by decide, by decide, rfl⟩
/-- R172 on a HALTED core: the fault is set, the core stays halted, the caller gets the error. -/
theorem test_store_outside_memory_when_halted :
    hostStore 1024 (.int 1) (enterHalted State.reset) =
      (.error (.outOfBounds 1024), { enterHalted State.reset with fault := some (.outOfBounds 1024) }) := rfl
theorem test_stale_line :
    let s := { coreOn 9 (.int 0) with lines := [(0, .valid 0 (record "ADDI,R1,R0,5"))] }
    (hostLoad 0 (loadProgram [record "ADDI,R1,R0,6"] s).2).2.trace = [.cacheHit 0] ∧
    (loadProgram [record "ADDI,R1,R0,6"] s).2.lines = s.lines := by decide
theorem test_four_lines_evict :
    let s := State.construct { memCapacity := 1024, cacheLines := 4, initMode := .on }
    let t := (hostLoad 1 (hostLoad 5 (hostLoad 1 s).2).2).2
    t.trace = [.cacheFill 1, .cacheFill 5, .cacheFill 1] ∧ lineAt 1 t = .valid 0 (.int 0) := by decide
theorem test_program_too_large :
    let s := State.construct (Config.ofCapacity 3)
    loadProgram [.int 1, .int 1, .int 1, .int 1] s =
      (.error (.programTooLarge 4), { s with fault := some (.programTooLarge 4) }) := rfl
theorem test_error_codes :
    errorCode (.outOfBounds 0) = 1 ∧ errorCode (.unknownRegister []) = 2 ∧ errorCode (.invalidCacheCode 3) = 3 ∧
    errorCode (.programCounterOutOfBounds 0) = 4 ∧ errorCode (.programTooLarge 0) = 5 ∧
    errorCode (.unimplementedOpcode []) = 6 ∧ errorCode (.operandCountMismatch [] 0) = 7 ∧
    errorCode (.invalidOperand []) = 8 ∧ errorCode (.invalidOpcode []) = 9 := by decide
/-- R9's notations on a word: -2 is ...11111110. -/
theorem test_word_notation :
    Word.bits (-2) 3 0 = 14 ∧ Word.zext 4 (-2) = 14 ∧ Word.sext 4 (-2) = -2 := by decide

/-! ## Witnesses: for each statement with hypotheses, a state and operands that meet them together -/

/-- ON, the PC at the unwritten last cell, line 5 holding cell 5: a state of the invariant that is not reset. -/
theorem inv_coreOn (pc : Nat) (c : Cell) (h : pc < 1024) (h5 : pc ≠ 5) : Inv (coreOn pc c) where
  parameters := (by decide : Config.standard.wf)
  memory := Memory.wf_set Memory.wf_nil h
  lines := (by decide : Lines.wf 1024 [(5, .valid 0 (.int 0))])
  coherent := by
    refine ⟨fun i t v hl => ?_, fun hm => by cases hm⟩
    simp only [lineAt, coreOn, sparseGet] at hl
    split at hl
    · cases hl
    · split at hl
      · next hi =>
        cases hl
        subst hi
        exact ⟨(by decide : (0 : Int) ≤ 0 * 1024 + 5 ∧ (0 * 1024 + 5 : Int) < 1024), (sparseGet_sparseSet_other (l := []) .nil (Ne.symm h5)).symm⟩
      · cases hl

theorem inv_coreAt (pc : Nat) (r1 r2 : Int) (c : Cell) (h : pc < 1024) : Inv (coreAt pc r1 r2 c) where
  parameters := (by decide : Config.standard.wf)
  memory := Memory.wf_set Memory.wf_nil h
  lines := Lines.wf_nil
  coherent := ⟨fun _ _ _ hl => (by cases hl), fun _ _ => rfl⟩

theorem denotes_digit (d : Nat) (h : d < 10) : Denotes [digitChar d] d := by
  have e : (Nat.ofDigits 10 ([digitChar d].reverse.map digitValue) : Int) = d := by
    simp only [List.reverse_singleton, List.map_singleton]
    revert d; decide
  have := Denotes.plain [digitChar d] (by simp) (by
    intro c hc; cases List.mem_singleton.mp hc; revert d; decide)
  rwa [e] at this

theorem noInteger_x : NoInteger "x".toList := by
  intro n h
  generalize e : "x".toList = tok at h
  cases h with
  | plain ds _ d => subst e; exact absurd (d 'x' (by simp)) (by decide)
  | plus ds _ _ => cases e
  | minus ds _ _ => cases e

theorem noInteger_sign : NoInteger "-".toList := by
  intro n h
  generalize e : "-".toList = tok at h
  cases h with
  | plain ds _ d => subst e; exact absurd (d '-' (by simp)) (by decide)
  | plus ds _ _ => cases e
  | minus ds h _ => cases e; exact absurd rfl h

theorem noRegister_32 : NamesNoRegister "R32".toList := by intro i; revert i; decide
theorem noRegister_zeros : NamesNoRegister "R01".toList := by intro i; revert i; decide

/-- The instruction rules (ADD, ADDI, SUB, SLT, J, CACHE, the unimplemented four, HALT), each clause. -/
theorem test_witness_rules :
    (commaFree "R31".toList = true ∧ commaFree [] = true) ∧
    (["R1".toList, "R2".toList].length ≠ 3 ∧ [[], [], [], ([] : Token)].length ≠ 3 ∧ ([] : List Token).length ≠ 1) ∧
    (NamesNoRegister "R32".toList ∧ NamesNoRegister "R01".toList) ∧
    (Denotes "0".toList 0 ∧ Denotes "1".toList 1 ∧ Denotes "2".toList 2 ∧ Denotes "3".toList 3) ∧
    ((3 : Int) ≠ 0 ∧ (3 : Int) ≠ 1 ∧ (3 : Int) ≠ 2) ∧ NoInteger "x".toList ∧ NoInteger "-".toList :=
  ⟨by decide, by decide, ⟨noRegister_32, noRegister_zeros⟩,
    ⟨denotes_digit 0 (by decide), denotes_digit 1 (by decide), denotes_digit 2 (by decide), denotes_digit 3 (by decide)⟩,
    by decide, noInteger_x, noInteger_sign⟩

theorem denotes_of {tok : Token} {n : Int} (h : tok ≠ []) (d : tok.all Char.isDigit = true)
    (e : Nat.ofDigits 10 (tok.reverse.map digitValue) = n) : Denotes tok n :=
  e ▸ Denotes.plain tok h (List.all_eq_true.mp d)

theorem denotes_256 : Denotes "256".toList 256 := denotes_of (by decide) (by decide) rfl
theorem denotes_255 : Denotes "255".toList 255 := denotes_of (by decide) (by decide) rfl

/-- J's next fetch: the first target past 1024 cells, and the last one inside. -/
theorem test_witness_JumpNextFetch :
    let s := coreAt 0 0 0 (record "J,256")
    Running s ∧ Denotes "256".toList 256 ∧ Denotes "255".toList 255 ∧
      (∃ t, exec (.j ["256".toList]) s = .next t) ∧ (∃ t, exec (.j ["255".toList]) s = .next t) ∧
      ¬ (0 ≤ (256 : Int) * 4 ∧ (256 : Int) * 4 < s.cfg.memCapacity) ∧ (255 : Int) * 4 < s.cfg.memCapacity :=
  ⟨⟨rfl, rfl⟩, denotes_256, denotes_255, ⟨_, next_of_isNext State.reset (by decide)⟩,
    ⟨_, next_of_isNext State.reset (by decide)⟩, by decide⟩

/-- The own fetches of CACHE and HALT in ON mode, on a miss. -/
theorem test_witness_ownFetch :
    (let s := coreOn 9 (record "CACHE,0")
     Running s ∧ s.mode = .on ∧ 0 ≤ s.pc ∧ s.pc < s.cfg.memCapacity ∧ lookup s.pc s = none ∧
      commaFree "0".toList = true ∧ backing s.pc s = .text ("CACHE".toList ++ ',' :: "0".toList)) ∧
    (let s := coreOn 9 (record "CACHE,2")
     Running s ∧ s.mode = .on ∧ 0 ≤ s.pc ∧ s.pc < s.cfg.memCapacity ∧ lookup s.pc s = none ∧
      commaFree "2".toList = true ∧ backing s.pc s = .text ("CACHE".toList ++ ',' :: "2".toList)) ∧
    (let s := coreOn 9 (record "HALT,x")
     Running s ∧ s.mode = .on ∧ 0 ≤ s.pc ∧ s.pc < s.cfg.memCapacity ∧ lookup s.pc s = none ∧
      decode (backing s.pc s) = .ok (.halt ["x".toList])) :=
  ⟨⟨⟨rfl, rfl⟩, by decide⟩, ⟨⟨rfl, rfl⟩, by decide⟩, ⟨⟨rfl, rfl⟩, by decide⟩⟩

theorem test_witness_AluFunctionsWrap : (-2 ^ 31 : Int) ≤ -2 ^ 31 ∧ (2 ^ 31 - 1 : Int) < 2 ^ 31 := by decide

/-- The unimplemented four and HALT: an execution there is. -/
theorem test_witness_fatal :
    (∃ t, exec (.sw []) State.reset = .next t) ∧ ∃ t, exec (.halt []) State.reset = .next t := ⟨⟨_, rfl⟩, ⟨_, rfl⟩⟩

theorem test_witness_RaisesNothingIffWellFormed :
    let i : Instr := .cache ["2".toList]
    i.commaFree = true ∧ State.reset.fault = none ∧ (∀ ops, i ≠ .bne ops) ∧ (∀ ops, i ≠ .jal ops) ∧
      (∀ ops, i ≠ .lw ops) ∧ (∀ ops, i ≠ .sw ops) := by simp [Instr.commaFree, Instr.operands]; decide

theorem test_witness_DecodeOfEncode :
    Instr.wellFormed (.j ["255".toList]) = true ∧ Instr.commaFree (.add [[]]) = true := by decide

theorem test_witness_EncodeOfDecode :
    "J,2".toList ≠ "0".toList ∧ decode (.text "J,2".toList) = .ok (.j ["2".toList]) := by decide

theorem test_witness_VocabularyDecides :
    isValid (decodeRecord (record "FOO,R1")) = false ∧ (1 : Word) ≠ 0 := by decide

theorem test_witness_RegisterPorts : (6 : RegIdx) ≠ 7 ∧ NamesNoRegister "R32".toList := ⟨by decide, noRegister_32⟩

/-- Each clause of the load rule: just outside at both ends, OFF, a hit, a miss. -/
theorem test_witness_LoadFollowsItsRule :
    let off := coreAt 0 0 0 (.int 0)
    let on := coreOn 0 (.int 0)
    (¬ (0 ≤ (1024 : Int) ∧ (1024 : Int) < off.cfg.memCapacity) ∧ ¬ (0 ≤ (-1 : Int) ∧ (-1 : Int) < off.cfg.memCapacity)) ∧
    ((0 : Int) ≤ 1023 ∧ (1023 : Int) < off.cfg.memCapacity ∧ off.mode = .off) ∧
    ((0 : Int) ≤ 5 ∧ (5 : Int) < on.cfg.memCapacity ∧ on.mode = .on ∧
      lineAt ((5 : Int) % on.cfg.cacheLines).toNat on = .valid (5 / on.cfg.cacheLines) (.int 0)) ∧
    lineAt ((0 : Int) % on.cfg.cacheLines).toNat on = .invalid := by decide

theorem test_witness_StoreFollowsItsRule :
    let s := coreOn 1023 (.int 7)
    Memory.wf s.cfg.memCapacity s.mem ∧ (0 : Int) ≤ 1023 ∧ (1023 : Int) < s.cfg.memCapacity ∧
      ¬ (0 ≤ (1024 : Int) ∧ (1024 : Int) < s.cfg.memCapacity) ∧ s.mode = .on ∧
      (coreAt 0 0 0 (.int 7)).mode = .off := by decide

theorem test_witness_StoreThenLoad :
    let s := coreOn 1023 (.int 7)
    Memory.wf s.cfg.memCapacity s.mem ∧ (0 : Int) ≤ 1023 ∧ (1023 : Int) < s.cfg.memCapacity ∧ s.pc = 1023 := by decide

theorem test_witness_LoadReturnsBackingCell :
    Inv (coreOn 9 (.int 7)) ∧ (0 : Int) ≤ 5 ∧ (5 : Int) < (coreOn 9 (.int 7)).cfg.memCapacity :=
  ⟨inv_coreOn 9 _ (by decide) (by decide), by decide⟩

theorem test_witness_ClearedCacheMissesNext :
    ∃ t, (Denotes "0".toList 0 ∨ Denotes "0".toList 2) ∧
      exec (.cache ["0".toList]) (coreOn 9 (.int 7)) = .next t ∧ (0 : Int) ≤ 5 ∧
      (5 : Int) < (coreOn 9 (.int 7)).cfg.memCapacity :=
  ⟨_, .inl (denotes_digit 0 (by decide)), next_of_isNext State.reset (by decide), by decide⟩

theorem test_witness_CanonicalMemoriesAreEqual :
    Memory.wf 6 [(5, .int 1)] ∧ ∀ a < 6, sparseGet (.int 0) [(5, Cell.int 1)] a = sparseGet (.int 0) [(5, .int 1)] a :=
  ⟨by decide, fun _ _ => rfl⟩

/-- One record more than the cells, and exactly as many. -/
theorem test_witness_LoadProgramFollowsItsRule :
    let s := State.construct (Config.ofCapacity 1)
    Memory.wf s.cfg.memCapacity s.mem ∧ s.cfg.memCapacity < [Cell.int 0, .int 0].length ∧ s.fault = none ∧
      [Cell.int 0].length ≤ s.cfg.memCapacity := by decide

theorem test_witness_HostCallOutsideMemoryFaults :
    let s := enterHalted State.reset
    s.fault = none ∧ ¬ (0 ≤ (1024 : Int) ∧ (1024 : Int) < s.cfg.memCapacity) := by decide

theorem test_witness_FaultedCoreKeepsItsFault :
    let s := raise (.outOfBounds 7) (State.construct (Config.ofCapacity 1))
    s.fault = some (.outOfBounds 7) ∧ ¬ (0 ≤ (1 : Int) ∧ (1 : Int) < s.cfg.memCapacity) ∧
      s.cfg.memCapacity < [Cell.int 0, .int 0].length := by decide

theorem test_witness_HostWriteLeavesStaleLine :
    let s := coreOn 9 (.int 7)
    s.mode = .on ∧ (0 : Int) ≤ 5 ∧ (5 : Int) < s.cfg.memCapacity ∧ [Cell.int 1].length ≤ s.cfg.memCapacity ∧
      lineAt ((5 : Int) % s.cfg.cacheLines).toNat s = .valid (5 / s.cfg.cacheLines) (.int 0) := by decide

theorem test_witness_StepRunsTheDecodedInstruction :
    let s := coreAt 1023 0 0 (record "J,2")
    Running s ∧ 0 ≤ s.pc ∧ s.pc < s.cfg.memCapacity ∧ loadCell s.pc s = .ok (record "J,2", s) ∧
      decode (record "J,2") = .ok (.j ["2".toList]) := ⟨⟨rfl, rfl⟩, by decide, by decide, rfl, by decide⟩

theorem test_witness_AddRecordTakesItsStep :
    let s := coreAt 0 5 10 (record "ADD,R31,R0,R2")
    Running s ∧ 0 ≤ s.pc ∧ s.pc < s.cfg.memCapacity ∧ s.mode = .off ∧
      backing s.pc s = .text ("ADD,".toList ++ regName 31 ++ ',' :: regName 0 ++ ',' :: regName 2) :=
  ⟨⟨rfl, rfl⟩, by decide⟩

theorem test_witness_PlacedWordIsFetched :
    Running State.reset ∧ Memory.wf State.reset.cfg.memCapacity State.reset.mem ∧ 0 ≤ State.reset.pc ∧
      State.reset.pc < State.reset.cfg.memCapacity ∧ decodeTableWord 24 0x322C4A = some (.j ["2".toList]) :=
  ⟨⟨rfl, rfl⟩, by decide⟩

theorem test_witness_StepRaisesInvalidOpcode :
    let s := coreAt 0 0 0 (record "FOO")
    Running s ∧ 0 ≤ s.pc ∧ s.pc < s.cfg.memCapacity ∧ loadCell s.pc s = .ok (record "FOO", s) ∧
      isValid (decodeRecord (record "FOO")) = false := ⟨⟨rfl, rfl⟩, by decide, by decide, rfl, by decide⟩

theorem test_witness_StepOutsideMemoryFaults :
    let s := { coreAt 0 0 0 (.int 0) with pc := 1024 }
    Running s ∧ ¬ (0 ≤ s.pc ∧ s.pc < s.cfg.memCapacity) := ⟨⟨rfl, rfl⟩, by decide⟩

theorem test_witness_OnlyRunningCoresStep :
    (enterHalted State.reset).halted = true ∧ (raise (.outOfBounds 0) State.reset).halted = false ∧
      (raise (.outOfBounds 0) State.reset).fault = some (.outOfBounds 0) := by decide

theorem test_witness_TerminalStatesAreFinal : ¬ Running (hostRun 1 State.reset) :=
  fun h => absurd h.1 (by decide)

theorem test_witness_UnwrittenCellHalts :
    let s := coreOn 1023 (.int 0)
    Inv s ∧ Running s ∧ 0 ≤ s.pc ∧ s.pc < s.cfg.memCapacity ∧ backing s.pc s = .int 0 :=
  ⟨inv_coreOn 1023 _ (by decide) (by decide), ⟨rfl, rfl⟩, by decide⟩

/-- StepWritesNoMemory, ProgramCounterAfterStep, TraceOfAStep, OnlyHaltHalts: a step there is. -/
theorem test_witness_step : ∃ t, step (coreOn 9 (record "J,2")) = .next t ∧ t.pc = 8 :=
  ⟨_, next_of_isNext State.reset (by decide), by decide⟩

theorem test_witness_FaultsArePrecise :
    ∃ t, step (coreOn 9 (record "ADD,R1")) = .next t ∧ t.fault = some (.operandCountMismatch "ADD".toList 1) :=
  ⟨_, next_of_isNext State.reset (by decide), by decide⟩

theorem test_witness_OnlyCacheChangesTheMode :
    ∃ t, step (coreAt 9 0 0 (record "CACHE,1")) = .next t ∧ t.mode ≠ (coreAt 9 0 0 (record "CACHE,1")).mode :=
  ⟨_, next_of_isNext State.reset (by decide), by decide⟩

theorem test_witness_StepWritesAtMostOneRegister :
    ∃ t, step (coreAt 9 5 10 (record "ADD,R1,R1,R2")) = .next t ∧ t.x ≠ (coreAt 9 5 10 (record "ADD,R1,R1,R2")).x :=
  ⟨_, next_of_isNext State.reset (by decide), by decide⟩

theorem test_witness_ResetValues : 1 ≤ 1 ∧ (hostConstruct 1).isSome = true := by decide

theorem test_witness_LoadedCoreMeetsTheInvariant :
    Config.wf { memCapacity := 1, cacheLines := 1, initMode := .on } := by decide

theorem test_witness_StepKeepsTheInvariant :
    ∃ t, Inv (coreOn 9 (record "CACHE,2")) ∧ step (coreOn 9 (record "CACHE,2")) = .next t ∧ t.lines = [] :=
  ⟨_, inv_coreOn 9 _ (by decide) (by decide), next_of_isNext State.reset (by decide), by decide⟩

/-- On a RUNNING core, outside memory; on a HALTED one, at the last cell. -/
theorem test_witness_HostCallsKeepTheInvariant :
    let s := coreOn 9 (record "J,2")
    Inv s ∧ NoRaiseAfterHalt 1024 s ∧ TerminalExclusive s ∧
      NoRaiseAfterHalt 1023 (enterHalted s) ∧ TerminalExclusive (enterHalted s) :=
  ⟨inv_coreOn 9 _ (by decide) (by decide), .inr rfl, fun h => h.2 rfl, .inl (by decide), fun h => h.2 rfl⟩

/-- ReachableStatesAreCoherent, with a valid line. -/
theorem test_witness_Reachable :
    let c : Config := { memCapacity := 6, cacheLines := 6, initMode := .on }
    Reachable (hostLoad 5 (loadProgram [] (State.construct c)).2).2 ∧
      lineAt 5 (hostLoad 5 (loadProgram [] (State.construct c)).2).2 = .valid 0 (.int 0) :=
  ⟨.load 5 (.boot _ [] (by decide)), by decide⟩

theorem test_witness_TerminalStatesAreExclusive :
    let s := (loadProgram [] (State.construct (Config.ofCapacity 1))).2
    ReachableBeforeLateRaise (hostLoad 1 s).2 ∧ (hostLoad 1 s).2.fault = some (.outOfBounds 1) :=
  ⟨.load 1 (.boot _ [] (by decide)) (.inr rfl), by decide⟩

/-- The same core with the cache ON and line 5 filled, and with it OFF. -/
theorem test_witness_CacheIsTransparent :
    ∃ s', Inv (coreOn 9 (record "J,2")) ∧ Inv (coreAt 9 0 0 (record "J,2")) ∧
      SameButCache (coreOn 9 (record "J,2")) (coreAt 9 0 0 (record "J,2")) ∧
      step (coreOn 9 (record "J,2")) = .next s' :=
  ⟨_, inv_coreOn 9 _ (by decide) (by decide), inv_coreAt 9 0 0 _ (by decide),
    ⟨rfl, rfl, rfl, rfl, rfl, rfl⟩, next_of_isNext State.reset (by decide)⟩

end Sys2Proof.Tests
end

section
/-! PROOFS. The decimal rendering of R13 and the operand grammar of R80, read against each other. -/

namespace Sys2Proof.Proofs

open Sys2Proof.Machine

/-! ## One digit -/

theorem isDigit_digitChar {d : Nat} (hd : d < 10) : (digitChar d).isDigit = true := by
  revert d; decide

theorem digitValue_digitChar {d : Nat} (hd : d < 10) : digitValue (digitChar d) = d := by
  revert d; decide

/-! ## `[0-9]+` -/

theorem parseDigits_eq_some {ds : Token} {m : Nat} :
    parseDigits ds = some m ↔
      ds ≠ [] ∧ ds.all Char.isDigit = true ∧
        ds.foldl (fun acc c => acc * 10 + digitValue c) 0 = m := by
  unfold parseDigits
  split
  case isTrue h =>
    obtain ⟨hne, hall⟩ := h
    simp [hne, hall]
  case isFalse h =>
    simp only [reduceCtorEq, false_iff]
    exact fun ⟨hne, hall, _⟩ => h ⟨hne, hall⟩

theorem parseDigits_digitChar {d : Nat} (hd : d < 10) : parseDigits [digitChar d] = some d := by
  simp [parseDigits_eq_some, isDigit_digitChar hd, digitValue_digitChar hd]

/-- One more digit at the end of a numeral: its value moves up one place. -/
theorem parseDigits_append_digitChar {ds : Token} {m d : Nat} (h : parseDigits ds = some m)
    (hd : d < 10) : parseDigits (ds ++ [digitChar d]) = some (m * 10 + d) := by
  obtain ⟨-, hall, hval⟩ := parseDigits_eq_some.mp h
  refine parseDigits_eq_some.mpr ⟨by simp, ?_, ?_⟩
  · rw [List.all_append, hall]; simp [isDigit_digitChar hd]
  · rw [List.foldl_append, hval]; simp [digitValue_digitChar hd]

/-! ## `show` -/

/-- Any fuel above `n` outlasts the digits of `n`, so no leading digit is cut off. -/
theorem parseDigits_showDigits {fuel n : Nat} (h : n < fuel) :
    parseDigits (showDigits fuel n) = some n := by
  induction fuel generalizing n with
  | zero => omega
  | succ fuel ih =>
    rw [showDigits]
    split
    case isTrue hn => exact parseDigits_digitChar hn
    case isFalse hn =>
      have htens : parseDigits (showDigits fuel (n / 10)) = some (n / 10) := ih (by omega)
      rw [parseDigits_append_digitChar htens (Nat.mod_lt n (by decide)), Nat.div_add_mod' n 10]

@[simp] theorem parseDigits_showNat (n : Nat) : parseDigits (showNat n) = some n :=
  parseDigits_showDigits n.lt_succ_self

/-! ## `[+-]?[0-9]+` -/

/-- An unsigned numeral is an integer token: no sign is a digit, so the sign cases of the grammar do not apply. -/
theorem parseInt_of_parseDigits {ds : Token} {m : Nat} (h : parseDigits ds = some m) :
    parseInt ds = some (m : Int) := by
  obtain ⟨-, hall, -⟩ := parseDigits_eq_some.mp h
  unfold parseInt
  split
  case h_1 => exact absurd hall (by simp)
  case h_2 => exact absurd hall (by simp)
  case h_3 => rw [h]; rfl

theorem parseInt_minus_of_parseDigits {ds : Token} {m : Nat} (h : parseDigits ds = some m) :
    parseInt ('-' :: ds) = some (-(m : Int)) := by
  rw [parseInt, h]; rfl

theorem parseInt_showInt (n : Int) : parseInt (showInt n) = some n := by
  unfold showInt
  split
  case isTrue hneg =>
    have habs : -(n.natAbs : Int) = n := by omega
    rw [parseInt_minus_of_parseDigits (parseDigits_showNat _), habs]
  case isFalse hpos =>
    have habs : (n.natAbs : Int) = n := by omega
    rw [parseInt_of_parseDigits (parseDigits_showNat _), habs]

/-- Settles O16: the digits of `show` are read back one place at a time, and its sign by the sign case of R80. -/
theorem shownIntegersReadBack : Obligations.ShownIntegersReadBack :=
  fun n => intOperand_ok.mpr (parseInt_showInt n)

end Sys2Proof.Proofs
end

section
/-! PROOFS. An integer token read by the grammar of R80 denotes the integer it is read as. -/

namespace Sys2Proof.Proofs

open Sys2Proof.Machine

/-- Horner's rule: reading digits from the left gives the positional value of the numeral. -/
theorem foldl_digitValue_eq_ofDigits (ds : Token) :
    ds.foldl (fun acc c => acc * 10 + digitValue c) 0 =
      Nat.ofDigits 10 (ds.reverse.map digitValue) := by
  rw [Nat.ofDigits_eq_foldr, List.foldr_map, List.foldr_reverse]
  simp [Nat.mul_comm, Nat.add_comm]

/-- The digits of a numeral, in the terms of `Denotes`. -/
theorem digits_of_parseDigits {ds : Token} {m : Nat} (h : parseDigits ds = some m) :
    ds ≠ [] ∧ (∀ c ∈ ds, c.isDigit = true) ∧ Nat.ofDigits 10 (ds.reverse.map digitValue) = m := by
  obtain ⟨hne, hall, hval⟩ := parseDigits_eq_some.mp h
  exact ⟨hne, List.all_eq_true.mp hall, foldl_digitValue_eq_ofDigits ds ▸ hval⟩

theorem denotes_of_parseInt {tok : Token} {n : Int} (h : parseInt tok = some n) :
    Denotes tok n := by
  unfold parseInt at h
  split at h <;> obtain ⟨m, hm, rfl⟩ := Option.map_eq_some_iff.mp h <;>
    obtain ⟨hne, hdigits, rfl⟩ := digits_of_parseDigits hm
  case h_1 => simpa [Nat.coe_ofDigits] using Denotes.plus _ hne hdigits
  case h_2 => exact .minus _ hne hdigits
  case h_3 => simpa [Nat.coe_ofDigits] using Denotes.plain _ hne hdigits

end Sys2Proof.Proofs
end

section
/-! PROOFS. All a step can do (R150 to R161), and what each part of it does to the mode, the halt flag, the registers and the trace. -/

namespace Sys2Proof.Proofs

open Sys2Proof.Machine

/-! ## What a load leaves unchanged, and what it records -/

section Load

variable {a : Int} {c : Cell} {s t : State}

theorem loadCell_x (h : loadCell a s = .ok (c, t)) : t.x = s.x := by
  rw [loadCell_frame h]

theorem loadCell_mode (h : loadCell a s = .ok (c, t)) : t.mode = s.mode := by
  rw [loadCell_frame h]

theorem loadCell_running (h : loadCell a s = .ok (c, t)) (hs : Running s) : Running t := by
  rw [loadCell_frame h]
  exact hs

/-- The events of a load (R44, R45): none in OFF mode, a hit or a fill in ON mode. -/
theorem loadCell_trace (h : loadCell a s = .ok (c, t)) :
    ∃ events, (events = [] ∨
        (s.mode = .on ∧ (events = [.cacheHit a] ∨ events = [.cacheFill a]))) ∧
      t.trace = s.trace ++ events := by
  obtain ⟨-, ⟨-, -, rfl⟩ | ⟨hon, -, rfl⟩ | ⟨hon, -, -, rfl⟩⟩ := loadCell_ok h
  · exact ⟨[], .inl rfl, by simp⟩
  · exact ⟨_, .inr ⟨hon, .inl rfl⟩, rfl⟩
  · exact ⟨_, .inr ⟨hon, .inr rfl⟩, rfl⟩

end Load

/-! ## What the mode machine leaves unchanged, and what it records -/

/-- R52: whatever its code, the mode machine touches the mode, the lines and the trace alone, and it notifies once. -/
theorem cacheControl_frame {c : Int} {s t : State} (h : cacheControl c s = .ok t) :
    ∃ text, t = { s with mode := t.mode, lines := t.lines, trace := s.trace ++ [.notify text] } := by
  obtain ⟨-, rfl⟩ | ⟨-, rfl⟩ | ⟨-, rfl⟩ := cacheControl_ok h <;> exact ⟨_, rfl⟩

/-- R52: only the codes 0 and 1 set the mode. -/
theorem cacheControl_mode {c : Int} {s t : State} (h : cacheControl c s = .ok t) :
    (t.mode = .off ∧ c = 0) ∨ (t.mode = .on ∧ c = 1) ∨ t.mode = s.mode := by
  obtain ⟨hc, rfl⟩ | ⟨hc, rfl⟩ | ⟨-, rfl⟩ := cacheControl_ok h
  · exact .inl ⟨rfl, hc⟩
  · exact .inr (.inl ⟨rfl, hc⟩)
  · exact .inr (.inr rfl)

/-! ## What an instruction can do to each part of the state -/

section Exec

variable {i : Instr} {s t : State}

theorem execCase_of_next (h : exec i s = .next t) : ExecCase i s t := by
  obtain ⟨u, hu, hcase⟩ := exec_cases i s
  obtain rfl : u = t := by simpa using hu.symm.trans h
  exact hcase

/-- R25: the mode changes by CACHE alone, to the mode of its code. -/
theorem mode_of_execCase (h : ExecCase i s t) (hne : t.mode ≠ s.mode) :
    ∃ code, i = .cache [code] ∧
      ((t.mode = .off ∧ parseInt code = some 0) ∨ (t.mode = .on ∧ parseInt code = some 1)) := by
  cases h with
  | raised e => exact absurd rfl hne
  | wrote d v rest operands opcode => exact absurd rfl hne
  | jumped target n opcode value => exact absurd rfl hne
  | halted ops opcode => exact absurd rfl hne
  | controlled code c u opcode value effect =>
    refine ⟨code, opcode, ?_⟩
    obtain ⟨hm, rfl⟩ | ⟨hm, rfl⟩ | hm := cacheControl_mode effect
    · exact .inl ⟨hm, value⟩
    · exact .inr ⟨hm, value⟩
    · exact absurd hm hne

/-- R26: the halt flag is set by HALT alone. -/
theorem halt_of_execCase (h : ExecCase i s t) (hs : s.halted = false) (ht : t.halted = true) :
    ∃ ops, i = .halt ops := by
  have unset {u : State} (hu : u.halted = s.halted) : u.halted ≠ true := by simp [hu, hs]
  cases h with
  | raised e => exact absurd ht (unset rfl)
  | wrote d v rest operands opcode => exact absurd ht (unset rfl)
  | jumped target n opcode value => exact absurd ht (unset rfl)
  | controlled code c u opcode value effect =>
    obtain ⟨text, hu⟩ := cacheControl_frame effect
    exact absurd ht (unset (by rw [hu]; rfl))
  | halted ops opcode => exact ⟨ops, opcode⟩

/-- R23: the registers change by the four ALU instructions alone, at their first operand alone. -/
theorem registers_of_execCase (h : ExecCase i s t) (hne : t.x ≠ s.x) :
    ∃ d rest, i.operands = regName d :: rest ∧
      (i = .add i.operands ∨ i = .addi i.operands ∨ i = .sub i.operands ∨ i = .slt i.operands) ∧
      ∀ j : RegIdx, j ≠ d → readReg j t = readReg j s := by
  cases h with
  | raised e => exact absurd rfl hne
  | wrote d v rest operands opcode =>
    exact ⟨d, rest, operands, opcode, fun j hj => readReg_writeReg_other hj⟩
  | jumped target n opcode value => exact absurd rfl hne
  | controlled code c u opcode value effect =>
    obtain ⟨text, hu⟩ := cacheControl_frame effect
    exact absurd (by rw [hu]; rfl) hne
  | halted ops opcode => exact absurd rfl hne

/-- R160: an instruction that leaves the core RUNNING ends with its snapshot, CACHE's notification before
it; one that halts or raises records nothing. -/
theorem trace_of_execCase (h : ExecCase i s t) (hs : Running s) :
    (t.halted = false ∧ t.fault = none ∧ ∃ notifications : List Event,
        (notifications = [] ∨ ∃ text, notifications = [.notify text]) ∧
        t.trace = s.trace ++ notifications ++ [.snapshot t.x]) ∨
      ((t.halted = true ∨ t.fault ≠ none) ∧ t.trace = s.trace) := by
  obtain ⟨hhalt, hfault⟩ := hs
  cases h with
  | raised e => exact .inr ⟨.inr (by simp), rfl⟩
  | wrote d v rest operands opcode => exact .inl ⟨hhalt, hfault, [], .inl rfl, by simp⟩
  | jumped target n opcode value => exact .inl ⟨hhalt, hfault, [], .inl rfl, by simp⟩
  | controlled code c u opcode value effect =>
    obtain ⟨text, hu⟩ := cacheControl_frame effect
    rw [hu]
    exact .inl ⟨hhalt, hfault, [.notify text], .inr ⟨text, rfl⟩, rfl⟩
  | halted ops opcode => exact .inr ⟨.inl rfl, rfl⟩

end Exec

/-! ## All a step can do -/

/-- The three ways a step of a RUNNING core goes: its fetch fails (R152), the cell it loads holds no
instruction (R156), or it runs the one the cell holds over the state the load left (R161). -/
inductive StepCase (s : State) : State → Prop where
  | unfetched (outside : ¬ inBounds s.pc s) :
      StepCase s (raise (.programCounterOutOfBounds s.pc) s)
  | undecoded (c : Cell) (u : State) (op : Token) (load : loadCell s.pc s = .ok (c, u))
      (opcode : decode c = .error (.invalidOpcode op)) : StepCase s (raise (.invalidOpcode op) u)
  | executed (c : Cell) (u t : State) (i : Instr) (load : loadCell s.pc s = .ok (c, u))
      (instr : decode c = .ok i) (effect : exec i u = .next t) : StepCase s t

/-- A step is taken by a RUNNING core alone (R150), and it goes one of the three ways. -/
theorem step_cases {s t : State} (h : step s = .next t) : Running s ∧ StepCase s t := by
  unfold step at h
  split at h
  case isTrue => cases h
  case isFalse hhalt =>
    split at h
    case h_1 => cases h
    case h_2 hfault =>
      refine ⟨⟨by simpa using hhalt, hfault⟩, ?_⟩
      split at h
      case h_1 e he =>
        obtain ⟨hout, rfl⟩ := fetch_error he
        cases h
        exact .unfetched hout
      case h_2 c u hu =>
        obtain ⟨-, hload⟩ := fetch_ok hu
        split at h
        case h_1 op hop => cases h; exact .undecoded c u op hload hop
        case h_2 i hi => exact .executed c u t i hload hi h

/-- R161: the instruction in the cell at the PC runs over the state the load left. -/
theorem step_eq_exec {c : Cell} {i : Instr} {s u : State} (hs : Running s)
    (load : loadCell s.pc s = .ok (c, u)) (instr : decode c = .ok i) : step s = exec i u := by
  obtain ⟨hhalt, hfault⟩ := hs
  obtain ⟨hin, -⟩ := loadCell_ok load
  have hfetch : fetch s = .ok (c, u) := (if_pos hin).trans load
  simp [step, hhalt, hfault, hfetch, instr]

/-! ## The statements about a step -/

/-- Settles O39: the events of the load, then those of the instruction. -/
theorem traceOfAStep : Obligations.TraceOfAStep := by
  intro s t h
  obtain ⟨hs, hcase⟩ := step_cases h
  cases hcase with
  | unfetched outside => exact ⟨[], [], .inl rfl, .inl rfl, .inr ⟨.inr (by simp), by simp⟩⟩
  | undecoded c u op load opcode =>
    obtain ⟨events, hevents, htrace⟩ := loadCell_trace load
    exact ⟨events, [], hevents, .inl rfl, .inr ⟨.inr (by simp), htrace⟩⟩
  | executed c u t i load instr effect =>
    obtain ⟨events, hevents, htrace⟩ := loadCell_trace load
    obtain ⟨hhalt, hfault, notes, hnotes, ht⟩ | hstop :=
      trace_of_execCase (execCase_of_next effect) (loadCell_running load hs)
    · exact ⟨events, notes, hevents, hnotes, .inl ⟨hhalt, hfault, htrace ▸ ht⟩⟩
    · exact ⟨events, [], hevents, .inl rfl, .inr (htrace ▸ hstop)⟩

/-- Settles O40: neither the load nor a raise touches the mode, and of the instructions only CACHE does. -/
theorem onlyCacheChangesTheMode : Obligations.OnlyCacheChangesTheMode := by
  intro s t h hne
  obtain ⟨-, hcase⟩ := step_cases h
  cases hcase with
  | unfetched outside => exact absurd rfl hne
  | undecoded c u op load opcode => exact absurd (loadCell_mode load) hne
  | executed c u t i load instr effect =>
    rw [← loadCell_mode load] at hne
    obtain ⟨code, rfl, hmode⟩ := mode_of_execCase (execCase_of_next effect) hne
    exact ⟨c, u, code, load, instr,
      hmode.imp (And.imp_right denotes_of_parseInt) (And.imp_right denotes_of_parseInt)⟩

/-- Settles O41: of the instructions only HALT sets the flag, and it always does. -/
theorem onlyHaltHalts : Obligations.OnlyHaltHalts := by
  intro s t h
  obtain ⟨hs, hcase⟩ := step_cases h
  constructor
  · intro ht
    cases hcase with
    | unfetched outside => exact absurd ht (by simp [hs.1])
    | undecoded c u op load opcode => exact absurd ht (by simp [(loadCell_running load hs).1])
    | executed c u t i load instr effect =>
      obtain ⟨ops, rfl⟩ :=
        halt_of_execCase (execCase_of_next effect) (loadCell_running load hs).1 ht
      exact ⟨c, u, ops, load, instr⟩
  · rintro ⟨c, u, ops, load, instr⟩
    have heq : exec (.halt ops) u = .next t := (step_eq_exec hs load instr).symm.trans h
    cases heq
    rfl

/-- Settles O42: neither the load nor a raise touches a register, and of the instructions only the four do. -/
theorem stepWritesAtMostOneRegister : Obligations.StepWritesAtMostOneRegister := by
  intro s t h hne
  obtain ⟨-, hcase⟩ := step_cases h
  cases hcase with
  | unfetched outside => exact absurd rfl hne
  | undecoded c u op load opcode => exact absurd (loadCell_x load) hne
  | executed c u t i load instr effect =>
    have hx := loadCell_x load
    rw [← hx] at hne
    obtain ⟨d, rest, hops, hop, hothers⟩ := registers_of_execCase (execCase_of_next effect) hne
    refine ⟨c, u, i, d, rest, load, instr, hops, hop, fun j hj => (hothers j hj).trans ?_⟩
    simp only [readReg, hx]

end Sys2Proof.Proofs
end

section
/-! PROOFS. The register ports (R22, R23), the construction (R32, R190) and the invariant of a loaded core. -/

namespace Sys2Proof.Proofs

open Sys2Proof.Machine

/-! ## The register ports -/

theorem regOperand_of_namesNoRegister {tok : Token} (h : NamesNoRegister tok) :
    regOperand tok = .error (.unknownRegister tok) := by
  have hnone : parseReg tok = none :=
    Option.eq_none_iff_forall_ne_some.mpr fun i hi => h i (regName_of_parseReg hi)
  simp [regOperand, hnone]

theorem readNamed_regName (i : RegIdx) (s : State) : readNamed (regName i) s = .ok (readReg i s) := by
  simp [readNamed, Except.map]

theorem writeNamed_regName (i : RegIdx) (v : Word) (s : State) :
    writeNamed (regName i) v s = .ok (writeReg i v s) := by
  simp [writeNamed, Except.map]

/-- Settles O18: a port resolves its name first, then reads or writes the one register. -/
theorem registerPorts : Obligations.RegisterPorts := by
  refine ⟨fun s i => readNamed_regName i s, fun s i v => ?_, fun s name v hname => ?_⟩
  · exact ⟨_, writeNamed_regName i v s, rfl, readReg_writeReg_same, fun j => readReg_writeReg_other⟩
  · have herr := regOperand_of_namesNoRegister hname
    exact ⟨by rw [readNamed, herr]; rfl, by rw [writeNamed, herr]; rfl⟩

/-! ## The construction -/

theorem readReg_construct (c : Config) (i : RegIdx) : readReg i (State.construct c) = 0 := by
  simp [readReg, State.construct]

theorem hostConstruct_of_pos {n : Nat} (h : 1 ≤ n) :
    hostConstruct n = some (State.construct (Config.ofCapacity n)) := if_pos h

/-- Settles O43: an empty sparse array holds the reset value at every key. -/
theorem resetValues : Obligations.ResetValues :=
  ⟨rfl, fun _ hn => ⟨_, hostConstruct_of_pos hn, readReg_construct _, rfl, fun _ => rfl,
    fun _ => rfl, rfl, rfl, rfl, rfl, rfl, rfl⟩⟩

/-! ## The invariant before the first step -/

/-- With no line valid there is nothing to be incoherent: the invariant is its part about memory. -/
theorem inv_of_lines_nil {s : State} (hl : s.lines = []) (hc : s.cfg.wf)
    (hm : Memory.wf s.cfg.memCapacity s.mem) : Inv s := by
  have hinvalid (i : Nat) : lineAt i s = .invalid := by rw [lineAt, hl]; rfl
  exact {
    parameters := hc
    memory := hm
    lines := hl ▸ Lines.wf_nil
    coherent := ⟨fun i t v hv => (by simp [hinvalid] at hv), fun _ => hinvalid⟩ }

theorem terminalExclusive_of_not_halted {s : State} (h : s.halted = false) : TerminalExclusive s :=
  fun ⟨hhalt, _⟩ => by simp [h] at hhalt

/-- Loading a program, whether it fits or not, leaves these three parts alone (R63, R192). -/
theorem loadProgram_frame (r : List Cell) (s : State) :
    (loadProgram r s).2.lines = s.lines ∧ (loadProgram r s).2.cfg = s.cfg ∧
      (loadProgram r s).2.halted = s.halted := by
  obtain ⟨-, e⟩ | ⟨-, e⟩ := loadProgram_cases r s <;> rw [e]
  · exact ⟨rfl, rfl, rfl⟩
  · exact ⟨hostRaise_lines, hostRaise_cfg, hostRaise_halted⟩

/-- Settles O44: reset leaves no cell written and no line valid. -/
theorem resetMeetsTheInvariant : Obligations.ResetMeetsTheInvariant :=
  ⟨inv_of_lines_nil rfl (by decide) Memory.wf_nil, terminalExclusive_of_not_halted rfl⟩

/-- Settles O45: loading writes canonical memory and makes no line valid, so no line can be stale. -/
theorem loadedCoreMeetsTheInvariant : Obligations.LoadedCoreMeetsTheInvariant := by
  intro c r hc
  obtain ⟨hlines, hcfg, hhalt⟩ := loadProgram_frame r (State.construct c)
  exact ⟨inv_of_lines_nil hlines (hcfg ▸ hc) (loadProgram_wf Memory.wf_nil),
    terminalExclusive_of_not_halted hhalt⟩

end Sys2Proof.Proofs
end

section
/-! PROOFS. The load and the store of one cell (R44 to R47), and a load after a store or a host write (R60, R64). -/

namespace Sys2Proof.Proofs

open Sys2Proof.Machine

/-! ## Canonical sparse arrays -/

section Sparse

variable {α : Type} {d v : α} {l : List (Nat × α)} {a : Nat}

theorem sparseGet_cons_same : sparseGet d ((a, v) :: l) a = v := by simp [sparseGet]

theorem sparseGet_cons_of_gt {b : Nat} (h : a < b) :
    sparseGet d ((a, v) :: l) b = sparseGet d l b := by
  rw [sparseGet, if_neg (by omega), if_neg (by omega)]

/-- A key that reads as anything but the default is listed. -/
theorem mem_of_sparseGet_ne (h : sparseGet d l a ≠ d) : ∃ p ∈ l, p.1 = a := by
  induction l with
  | nil => exact absurd rfl h
  | cons p r ih =>
    obtain ⟨k, w⟩ := p
    simp only [sparseGet] at h
    split at h
    · exact absurd rfl h
    · split at h
      · next hak => exact ⟨_, List.mem_cons_self, hak.symm⟩
      · obtain ⟨q, hq, hqa⟩ := ih h
        exact ⟨q, List.mem_cons_of_mem _ hq, hqa⟩

end Sparse

/-- What a canonical memory lists first does not read as `Int 0`, so a list that reads alike cannot begin
at a higher address. -/
theorem head_not_lt {n a b : Nat} {v w : Cell} {m k : List (Nat × Cell)}
    (hm : Memory.wf n ((a, v) :: m))
    (h : ∀ x < n, sparseGet (.int 0) ((a, v) :: m) x = sparseGet (.int 0) ((b, w) :: k) x) :
    ¬ a < b := by
  intro hab
  obtain ⟨han, hv⟩ := hm.2 _ List.mem_cons_self
  have heq := h a han
  rw [sparseGet_cons_same, sparseGet, if_pos hab] at heq
  exact hv heq

/-- Behind a shared first address, canonical memories that read alike still do. -/
theorem tails_read_alike {n a : Nat} {v w : Cell} {m k : List (Nat × Cell)}
    (hm : Memory.wf n ((a, v) :: m)) (hk : Memory.wf n ((a, w) :: k))
    (h : ∀ x < n, sparseGet (.int 0) ((a, v) :: m) x = sparseGet (.int 0) ((a, w) :: k) x) :
    ∀ x < n, sparseGet (.int 0) m x = sparseGet (.int 0) k x := by
  obtain ⟨hma, -⟩ := List.pairwise_cons.mp hm.1
  obtain ⟨hka, -⟩ := List.pairwise_cons.mp hk.1
  intro x hx
  rcases Nat.lt_or_ge a x with hax | hxa
  · simpa only [sparseGet_cons_of_gt hax] using h x hx
  · rw [sparseGet_of_lt fun q hq => Nat.lt_of_le_of_lt hxa (hma q hq),
      sparseGet_of_lt fun q hq => Nat.lt_of_le_of_lt hxa (hka q hq)]

theorem memory_wf_tail {n : Nat} {p : Nat × Cell} {m : List (Nat × Cell)}
    (h : Memory.wf n (p :: m)) : Memory.wf n m :=
  ⟨h.1.of_cons, fun q hq => h.2 q (List.mem_cons_of_mem _ hq)⟩

/-- Settles O24: the first entries agree, each being the lowest address that does not read as `Int 0`, and
so on along the list. -/
theorem canonicalMemoriesAreEqual : Obligations.CanonicalMemoriesAreEqual := by
  intro n m
  induction m with
  | nil =>
    intro k _ hk h
    cases k with
    | nil => rfl
    | cons q k =>
      obtain ⟨hbn, hw⟩ := hk.2 q List.mem_cons_self
      exact absurd (sparseGet_cons_same.symm.trans (h q.1 hbn).symm) hw
  | cons p m ih =>
    obtain ⟨a, v⟩ := p
    intro k hm hk h
    obtain ⟨han, hv⟩ := hm.2 _ List.mem_cons_self
    cases k with
    | nil => exact absurd (sparseGet_cons_same.symm.trans (h a han)) hv
    | cons q k =>
      obtain ⟨b, w⟩ := q
      obtain rfl : a = b := Nat.le_antisymm
        (Nat.le_of_not_lt (head_not_lt hk fun x hx => (h x hx).symm))
        (Nat.le_of_not_lt (head_not_lt hm h))
      obtain rfl : v = w := by simpa only [sparseGet_cons_same] using h a han
      rw [ih k (memory_wf_tail hm) (memory_wf_tail hk) (tails_read_alike hm hk h)]

/-! ## The load, case by case -/

section Load

variable {a : Int} {v : Cell} {s : State}

theorem loadCell_of_outside (hb : ¬ inBounds a s) : loadCell a s = .error (.outOfBounds a) :=
  if_neg hb

theorem loadCell_of_off (hb : inBounds a s) (hm : s.mode = .off) :
    loadCell a s = .ok (backing a s, s) := by
  rw [loadCell, if_pos hb, hm]

theorem loadCell_of_hit (hb : inBounds a s) (hm : s.mode = .on) (hl : lookup a s = some v) :
    loadCell a s = .ok (v, emit (.cacheHit a) s) := by
  rw [loadCell, if_pos hb, hm]
  simp only [hl]

theorem loadCell_of_miss (hb : inBounds a s) (hm : s.mode = .on) (hl : lookup a s = none) :
    loadCell a s = .ok (backing a s, emit (.cacheFill a) (setLine a (backing a s) s)) := by
  rw [loadCell, if_pos hb, hm]
  simp only [hl]

end Load

/-- Settles O19: one clause for each branch of the load. -/
theorem loadFollowsItsRule : Obligations.LoadFollowsItsRule := fun _ _ => {
  outside := loadCell_of_outside
  off := fun h0 hn hm => loadCell_of_off ⟨h0, hn⟩ hm
  hit := fun _ h0 hn hm hl => loadCell_of_hit ⟨h0, hn⟩ hm (lookup_eq_some.mpr hl)
  miss := fun h0 hn hm hl =>
    ⟨_, loadCell_of_miss ⟨h0, hn⟩ hm (lookup_eq_none.mpr hl), rfl, lineAt_setLine_same,
      fun _ hi => lineAt_setLine_other hi⟩ }

/-- Settles O27: a host write goes past the cache, so the line of the address still hits. -/
theorem hostWriteLeavesStaleLine : Obligations.HostWriteLeavesStaleLine := by
  intro r a v s hon h0 hn hr hline
  obtain ⟨-, e⟩ | ⟨hlarge, -⟩ := loadProgram_cases r s
  · rw [e]
    have hhit := (loadFollowsItsRule a { s with mem := writeCells 0 r s.mem }).hit v h0 hn hon hline
    rw [hostLoad, hhit]
    exact ⟨rfl, rfl⟩
  · omega

/-! ## The store, case by case -/

section Store

variable {a : Int} {v : Cell} {s t : State}

theorem storeCell_of_outside (hb : ¬ inBounds a s) : storeCell a v s = .error (.outOfBounds a) :=
  if_neg hb

theorem storeCell_of_off (hb : inBounds a s) (hm : s.mode = .off) :
    storeCell a v s = .ok (setBacking a v s) := by
  rw [storeCell, if_pos hb, hm]

theorem storeCell_of_on (hb : inBounds a s) (hm : s.mode = .on) :
    storeCell a v s = .ok (setLine a v (setBacking a v s)) := by
  rw [storeCell, if_pos hb, hm]

theorem storeCell_of_inBounds (hb : inBounds a s) : ∃ t, storeCell a v s = .ok t := by
  cases hm : s.mode with
  | off => exact ⟨_, storeCell_of_off hb hm⟩
  | on => exact ⟨_, storeCell_of_on hb hm⟩

/-- A store changes nothing but memory and the lines. -/
theorem storeCell_frame (h : storeCell a v s = .ok t) :
    t = { s with mem := t.mem, lines := t.lines } := by
  obtain ⟨-, ⟨-, rfl⟩ | ⟨-, rfl⟩⟩ := storeCell_ok h <;> rfl

/-- Write-through (R47): a store writes memory alike in both modes. -/
theorem storeCell_mem (h : storeCell a v s = .ok t) : t.mem = (setBacking a v s).mem := by
  obtain ⟨-, ⟨-, rfl⟩ | ⟨-, rfl⟩⟩ := storeCell_ok h <;> rfl

theorem backing_congr (h : t.mem = s.mem) : backing a t = backing a s := by rw [backing, backing, h]

end Store

/-- Settles O20: memory is written alike in both modes, and the line of the address in ON mode only. -/
theorem storeFollowsItsRule : Obligations.StoreFollowsItsRule := by
  rintro a v s ⟨hsorted, -⟩
  refine ⟨storeCell_of_outside, fun h0 hn => ?_⟩
  obtain ⟨t, ht⟩ := storeCell_of_inBounds (v := v) ⟨h0, hn⟩
  refine ⟨t, ht, storeCell_frame ht, ?_, fun b hb hne => ?_, ?_⟩
  · exact (backing_congr (storeCell_mem ht)).trans (backing_setBacking_same hsorted)
  · exact (backing_congr (storeCell_mem ht)).trans (backing_setBacking_other hsorted h0 hb hne)
  · obtain ⟨-, ⟨hoff, rfl⟩ | ⟨hon, rfl⟩⟩ := storeCell_ok ht
    · exact ⟨fun _ => rfl, fun hon => by simp [hoff] at hon⟩
    · exact ⟨fun hoff => (by simp [hon] at hoff),
        fun _ => ⟨lineAt_setLine_same, fun i hi => lineAt_setLine_other (s := setBacking a v s) hi⟩⟩

/-- R47 with R44, R45: the stored cell is read back from memory in OFF mode and from its line in ON mode. -/
theorem loadCell_of_storeCell {a : Int} {v : Cell} {s t : State}
    (hsorted : s.mem.Pairwise (fun p q => p.1 < q.1)) (h : storeCell a v s = .ok t) :
    ∃ u, loadCell a t = .ok (v, u) := by
  obtain ⟨hb, ⟨hoff, rfl⟩ | ⟨hon, rfl⟩⟩ := storeCell_ok h
  · have hload := loadCell_of_off (s := setBacking a v s) hb hoff
    rw [backing_setBacking_same hsorted] at hload
    exact ⟨_, hload⟩
  · exact ⟨_, loadCell_of_hit hb hon (lookup_eq_some.mpr lineAt_setLine_same)⟩

/-- R152, R153: a fetch in bounds is the load of the cell at the PC. -/
theorem fetch_of_inBounds {s : State} (hb : inBounds s.pc s) : fetch s = loadCell s.pc s :=
  if_pos hb

/-- Settles O21: what the store wrote is what the load and the fetch, a load itself, read back. -/
theorem storeThenLoad : Obligations.StoreThenLoad := by
  rintro a v s ⟨hsorted, -⟩ h0 hn
  obtain ⟨t, ht⟩ := storeCell_of_inBounds (v := v) ⟨h0, hn⟩
  obtain ⟨u, hu⟩ := loadCell_of_storeCell hsorted ht
  have hstore : hostStore a v s = (.ok (), t) := by rw [hostStore, ht]
  rw [hstore]
  refine ⟨rfl, by rw [hostLoad, hu], ?_⟩
  rintro rfl
  obtain ⟨hb, -⟩ := loadCell_ok hu
  have hpc : t.pc = s.pc := by rw [storeCell_frame ht]
  exact ⟨u, (fetch_of_inBounds (by rwa [hpc])).trans (by rwa [hpc])⟩

end Sys2Proof.Proofs
end

section
/-! PROOFS. The invariant (R53, R35): the load, the store, each instruction and the host's calls keep it. -/

namespace Sys2Proof.Proofs

open Sys2Proof.Machine

/-! ## An address and its line -/

section Address

variable {a : Int} {s t : State}

/-- R49: tag and index make up the address. -/
theorem lineTag_mul_add_lineIndex (h : 1 ≤ s.cfg.cacheLines) :
    lineTag a s * s.cfg.cacheLines + lineIndex a s = a := by
  have hnonneg := Int.emod_nonneg a (b := s.cfg.cacheLines) (by omega)
  rw [lineTag, lineIndex, Int.toNat_of_nonneg hnonneg, Int.ediv_mul_add_emod]

/-- R49: the address that a tag and an index make up has that index. -/
theorem lineIndex_mul_add {k : Int} {i : Nat} (hi : i < s.cfg.cacheLines) :
    lineIndex (k * s.cfg.cacheLines + i) s = i := by
  have hmod : (i : Int) % s.cfg.cacheLines = i := Int.emod_eq_of_lt (by omega) (by omega)
  rw [lineIndex, Int.add_comm, Int.add_mul_emod_self_right, hmod, Int.toNat_natCast]

/-- A valid line lies below the line count. -/
theorem lt_of_lineAt_valid {i : Nat} {k : Int} {v : Cell}
    (hwf : Lines.wf s.cfg.cacheLines s.lines) (h : lineAt i s = .valid k v) :
    i < s.cfg.cacheLines := by
  have hne : lineAt i s ≠ .invalid := by simp [h]
  obtain ⟨p, hp, rfl⟩ := mem_of_sparseGet_ne hne
  exact (hwf.2 p hp).1

/-! ## What the invariant depends on -/

/-- The invariant speaks of memory, lines, mode and parameters alone. -/
theorem inv_congr (h : Inv s) (hmem : t.mem = s.mem) (hlines : t.lines = s.lines)
    (hmode : t.mode = s.mode) (hcfg : t.cfg = s.cfg) : Inv t := by
  obtain ⟨hp, hm, hl, hc, he⟩ := h
  refine ⟨hcfg ▸ hp, hcfg ▸ hmem ▸ hm, hcfg ▸ hlines ▸ hl, ?_, ?_⟩
  · simpa only [lineAt, backing, inBounds, hmem, hlines, hcfg] using hc
  · simpa only [lineAt, hmode, hlines] using he

/-- ON-mode coherence asks nothing of the line about to be filled: with every other line holding its cell,
filling the line of `a` with the cell at `a` leaves them all so. -/
theorem coherent_setLine (hlines : 1 ≤ s.cfg.cacheLines) (hon : s.mode = .on) (hb : inBounds a s)
    (hothers : ∀ i ≠ lineIndex a s, ∀ (k : Int) (v : Cell), lineAt i s = .valid k v →
      inBounds (k * s.cfg.cacheLines + i) s ∧ v = backing (k * s.cfg.cacheLines + i) s) :
    Coherent (setLine a (backing a s) s) := by
  refine ⟨fun i k v hi => ?_, fun hoff => by simp [hon] at hoff⟩
  rcases eq_or_ne i (lineIndex a s) with rfl | hne
  · obtain ⟨rfl, rfl⟩ : lineTag a s = k ∧ backing a s = v := by
      simpa [lineAt_setLine_same] using hi
    rw [setLine_cfg, lineTag_mul_add_lineIndex hlines]
    exact ⟨hb, rfl⟩
  · exact hothers i hne k v ((lineAt_setLine_other hne).symm.trans hi)

/-! ## The load and the store -/

/-- R53: the cached value of a hit is the backing cell. -/
theorem eq_backing_of_lookup {c : Cell} (h : Inv s) (hl : lookup a s = some c) : c = backing a s := by
  obtain ⟨-, hv⟩ := h.coherent.lineHoldsItsCell _ _ _ (lookup_eq_some.mp hl)
  rwa [lineTag_mul_add_lineIndex h.parameters.2] at hv

/-- Under the invariant a load in bounds gives the backing cell, hit or miss. -/
theorem loadCell_eq_backing (h : Inv s) (hb : inBounds a s) :
    ∃ t, loadCell a s = .ok (backing a s, t) := by
  cases hm : s.mode with
  | off => exact ⟨_, loadCell_of_off hb hm⟩
  | on =>
    cases hl : lookup a s with
    | none => exact ⟨_, loadCell_of_miss hb hm hl⟩
    | some c => exact ⟨_, eq_backing_of_lookup h hl ▸ loadCell_of_hit hb hm hl⟩

theorem loadCell_keeps_inv {c : Cell} (h : Inv s) (e : loadCell a s = .ok (c, t)) : Inv t := by
  obtain ⟨hb, ⟨-, -, rfl⟩ | ⟨-, -, rfl⟩ | ⟨hon, -, -, rfl⟩⟩ := loadCell_ok e
  · exact h
  · exact inv_congr h rfl rfl rfl rfl
  · have hfill : Inv (setLine a (backing a s) s) := {
      parameters := h.parameters
      memory := h.memory
      lines := setLine_wf h.lines h.parameters.2
      coherent := coherent_setLine h.parameters.2 hon hb fun i _ =>
        h.coherent.lineHoldsItsCell i }
    exact inv_congr hfill rfl rfl rfl rfl

/-- The cell a store writes belongs to no line but the one of its address. -/
theorem setBacking_keeps_other_lines {v : Cell} (h : Inv s) (hb : inBounds a s) {i : Nat}
    (hi : i ≠ lineIndex a s) {k : Int} {w : Cell} (hl : lineAt i s = .valid k w) :
    inBounds (k * s.cfg.cacheLines + i) s ∧
      w = backing (k * s.cfg.cacheLines + i) (setBacking a v s) := by
  obtain ⟨hin, hw⟩ := h.coherent.lineHoldsItsCell i k w hl
  have hne : k * s.cfg.cacheLines + i ≠ a := by
    rintro rfl
    exact hi (lineIndex_mul_add (lt_of_lineAt_valid h.lines hl)).symm
  exact ⟨hin, hw.trans (backing_setBacking_other h.memory.1 hb.1 hin.1 hne).symm⟩

theorem storeCell_keeps_inv {v : Cell} (h : Inv s) (e : storeCell a v s = .ok t) : Inv t := by
  obtain ⟨hcfg, hmem, hlines⟩ := storeCell_wf e h.memory h.lines h.parameters.2
  refine ⟨hcfg ▸ h.parameters, hmem, hlines, ?_⟩
  obtain ⟨hb, ⟨hoff, rfl⟩ | ⟨hon, rfl⟩⟩ := storeCell_ok e
  · have hempty := h.coherent.offMeansEmpty hoff
    exact ⟨fun i k w hl => absurd ((hempty i).symm.trans hl) (by simp), fun _ => hempty⟩
  · have hcoherent : Coherent (setLine a (backing a (setBacking a v s)) (setBacking a v s)) :=
      coherent_setLine h.parameters.2 hon hb fun i hi k w hl => setBacking_keeps_other_lines h hb hi hl
    rwa [backing_setBacking_same h.memory.1] at hcoherent

end Address

/-- Settles O22: a hit gives the line's value, which is the backing cell by coherence. -/
theorem loadReturnsBackingCell : Obligations.LoadReturnsBackingCell := by
  intro a s h h0 hn
  obtain ⟨t, ht⟩ := loadCell_eq_backing h ⟨h0, hn⟩
  rw [hostLoad, ht]

/-! ## The step -/

section Exec

variable {i : Instr} {s t : State}

/-- R62: no instruction writes memory, and none changes a parameter. -/
theorem memory_of_execCase (h : ExecCase i s t) : t.mem = s.mem ∧ t.cfg = s.cfg := by
  cases h with
  | raised e => exact ⟨rfl, rfl⟩
  | wrote d v rest operands opcode => exact ⟨rfl, rfl⟩
  | jumped target n opcode value => exact ⟨rfl, rfl⟩
  | halted ops opcode => exact ⟨rfl, rfl⟩
  | controlled code c u opcode value effect =>
    obtain ⟨text, hu⟩ := cacheControl_frame effect
    rw [hu]
    exact ⟨rfl, rfl⟩

/-- R52: turning the cache on changes no line, and the other two codes leave none valid. -/
theorem cacheControl_keeps_inv {c : Int} (h : Inv s) (e : cacheControl c s = .ok t) : Inv t := by
  obtain ⟨-, rfl⟩ | ⟨-, rfl⟩ | ⟨-, rfl⟩ := cacheControl_ok e
  · exact inv_of_lines_nil rfl h.parameters h.memory
  · exact ⟨h.parameters, h.memory, h.lines, h.coherent.lineHoldsItsCell, fun hoff => by simp at hoff⟩
  · exact inv_of_lines_nil rfl h.parameters h.memory

theorem execCase_keeps_inv (h : ExecCase i s t) (hs : Inv s) : Inv t := by
  cases h with
  | raised e => exact inv_congr hs rfl rfl rfl rfl
  | wrote d v rest operands opcode => exact inv_congr hs rfl rfl rfl rfl
  | jumped target n opcode value => exact inv_congr hs rfl rfl rfl rfl
  | halted ops opcode => exact inv_congr hs rfl rfl rfl rfl
  | controlled code c u opcode value effect =>
    exact inv_congr (cacheControl_keeps_inv hs effect) rfl rfl rfl rfl

/-- R35: an instruction that halts a RUNNING core is HALT, which raises nothing. -/
theorem terminalExclusive_of_exec (h : exec i s = .next t) (hs : Running s) :
    TerminalExclusive t := by
  obtain ⟨hhalt, hfault⟩ := hs
  rintro ⟨ht, hraised⟩
  obtain ⟨ops, rfl⟩ := halt_of_execCase (execCase_of_next h) hhalt ht
  cases h
  exact hraised hfault

end Exec

/-- Settles O46: the load keeps the invariant, and so does what follows it on each way a step goes. -/
theorem stepKeepsTheInvariant : Obligations.StepKeepsTheInvariant := by
  intro s t hinv h
  obtain ⟨hs, hcase⟩ := step_cases h
  cases hcase with
  | unfetched outside =>
    exact ⟨inv_congr hinv rfl rfl rfl rfl, terminalExclusive_of_not_halted hs.1⟩
  | undecoded c u op load opcode =>
    exact ⟨inv_congr (loadCell_keeps_inv hinv load) rfl rfl rfl rfl,
      terminalExclusive_of_not_halted (loadCell_running load hs).1⟩
  | executed c u t i load instr effect =>
    exact ⟨execCase_keeps_inv (execCase_of_next effect) (loadCell_keeps_inv hinv load),
      terminalExclusive_of_exec effect (loadCell_running load hs)⟩

/-- Neither the load nor the instruction of a step writes memory or changes a parameter (R62, R8). -/
theorem memory_of_stepCase {s t : State} (h : StepCase s t) : t.mem = s.mem ∧ t.cfg = s.cfg := by
  cases h with
  | unfetched outside => exact ⟨rfl, rfl⟩
  | undecoded c u op load opcode => rw [loadCell_frame load]; exact ⟨rfl, rfl⟩
  | executed c u t i load instr effect =>
    obtain ⟨hmem, hcfg⟩ := memory_of_execCase (execCase_of_next effect)
    rw [hmem, hcfg, loadCell_frame load]
    exact ⟨rfl, rfl⟩

/-- Settles O36: memory is the same data, so every cell reads as before. -/
theorem stepWritesNoMemory : Obligations.StepWritesNoMemory := by
  intro s t h
  obtain ⟨-, hcase⟩ := step_cases h
  obtain ⟨hmem, hcfg⟩ := memory_of_stepCase hcase
  exact ⟨fun _ => backing_congr hmem, hmem, hcfg⟩

/-! ## The host's calls -/

section HostCalls

variable {a : Int} {v : Cell} {s : State}

theorem hostRaise_keeps_inv {e : FatalError} (h : Inv s) : Inv (hostRaise e s) := by
  cases hf : s.fault with
  | none => rw [hostRaise_of_none hf]; exact inv_congr h rfl rfl rfl rfl
  | some f => rwa [hostRaise_of_some hf]

theorem hostLoad_keeps_inv (h : Inv s) : Inv (hostLoad a s).2 := by
  obtain ⟨c, t, ht, e⟩ | ⟨err, -, e⟩ := hostLoad_cases a s <;> rw [e]
  · exact loadCell_keeps_inv h ht
  · exact hostRaise_keeps_inv h

theorem hostStore_keeps_inv (h : Inv s) : Inv (hostStore a v s).2 := by
  obtain ⟨t, ht, e⟩ | ⟨err, -, e⟩ := hostStore_cases a v s <;> rw [e]
  · exact storeCell_keeps_inv h ht
  · exact hostRaise_keeps_inv h

/-- A call that cannot raise on a HALTED core and raises does so on a core that is not halted. -/
theorem terminalExclusive_hostRaise {e : FatalError} (hn : NoRaiseAfterHalt a s)
    (hb : ¬ inBounds a s) : TerminalExclusive (hostRaise e s) :=
  terminalExclusive_of_not_halted (hostRaise_halted.trans (hn.resolve_left hb))

theorem hostLoad_keeps_exclusive (hn : NoRaiseAfterHalt a s) (h : TerminalExclusive s) :
    TerminalExclusive (hostLoad a s).2 := by
  obtain ⟨c, t, ht, e⟩ | ⟨err, herr, e⟩ := hostLoad_cases a s <;> rw [e]
  · rw [loadCell_frame ht]; exact h
  · exact terminalExclusive_hostRaise hn (loadCell_error herr).1

theorem hostStore_keeps_exclusive (hn : NoRaiseAfterHalt a s) (h : TerminalExclusive s) :
    TerminalExclusive (hostStore a v s).2 := by
  obtain ⟨t, ht, e⟩ | ⟨err, herr, e⟩ := hostStore_cases a v s <;> rw [e]
  · rw [storeCell_frame ht]; exact h
  · exact terminalExclusive_hostRaise hn (storeCell_error herr).1

end HostCalls

/-- Settles O47: a call that succeeds is a load or a store, one that raises touches the fault alone. -/
theorem hostCallsKeepTheInvariant : Obligations.HostCallsKeepTheInvariant := fun _ _ _ =>
  ⟨fun h => ⟨hostLoad_keeps_inv h, hostStore_keeps_inv h⟩,
    fun hn h => ⟨hostLoad_keeps_exclusive hn h, hostStore_keeps_exclusive hn h⟩⟩

/-- The invariant holds after loading, and every move keeps it. -/
theorem inv_of_reachable {s : State} (h : Reachable s) : Inv s := by
  induction h with
  | boot c r hc => exact (loadedCoreMeetsTheInvariant c r hc).1
  | step hr e ih => exact (stepKeepsTheInvariant _ _ ih e).1
  | load a hr ih => exact hostLoad_keeps_inv ih
  | store a v hr ih => exact hostStore_keeps_inv ih

/-- Settles O48: coherence is part of the invariant. -/
theorem reachableStatesAreCoherent : Obligations.ReachableStatesAreCoherent := by
  intro s h i t v
  obtain ⟨hcell, hempty⟩ := (inv_of_reachable h).coherent
  exact ⟨hcell i t v, fun hoff => hempty hoff i⟩

end Sys2Proof.Proofs
end

section
/-! PROOFS. The cache after CACHE with code 0 or 2 (R61). -/

namespace Sys2Proof.Proofs

open Sys2Proof.Machine

/-! ## The grammar of R80 read back -/

theorem parseDigits_of_digits {ds : Token} (hne : ds ≠ []) (hdigits : ∀ c ∈ ds, c.isDigit = true) :
    parseDigits ds = some (Nat.ofDigits 10 (ds.reverse.map digitValue)) :=
  parseDigits_eq_some.mpr
    ⟨hne, List.all_eq_true.mpr hdigits, foldl_digitValue_eq_ofDigits ds⟩

theorem parseInt_of_denotes {tok : Token} {n : Int} (h : Denotes tok n) : parseInt tok = some n := by
  cases h with
  | plain ds hne hdigits =>
    simp [parseInt_of_parseDigits (parseDigits_of_digits hne hdigits), Nat.coe_ofDigits]
  | plus ds hne hdigits => simp [parseInt, parseDigits_of_digits hne hdigits, Nat.coe_ofDigits]
  | minus ds hne hdigits => exact parseInt_minus_of_parseDigits (parseDigits_of_digits hne hdigits)

/-! ## Codes 0 and 2 -/

/-- R140: CACHE with one integer operand is the mode machine driven by it. -/
theorem exec_cache_of_denotes {code : Token} {c : Int} (s : State) (h : Denotes code c) :
    exec (.cache [code]) s = finish s (cacheControl c s) := by
  have hcode : oneInt "CACHE".toList [code] = .ok c := intOperand_ok.mpr (parseInt_of_denotes h)
  rw [exec, execCache, hcode]
  rfl

/-- R52: codes 0 and 2 leave no line valid. -/
theorem lines_nil_of_exec_cache {code : Token} {s t : State}
    (hcode : Denotes code 0 ∨ Denotes code 2) (h : exec (.cache [code]) s = .next t) :
    t.lines = [] := by
  obtain hcode | hcode := hcode <;> rw [exec_cache_of_denotes s hcode] at h <;> cases h <;> rfl

theorem lookup_of_lines_nil {a : Int} {s : State} (h : s.lines = []) : lookup a s = none := by
  have hline : lineAt (lineIndex a s) s = .invalid := by rw [lineAt, h]; rfl
  exact lookup_eq_none.mpr fun v => by simp [hline]

/-- Settles O23: with no line valid every address misses, and a miss fills. -/
theorem clearedCacheMissesNext : Obligations.ClearedCacheMissesNext := by
  intro a code s t hcode h h0 hn
  have hnil : t.lines = [] := lines_nil_of_exec_cache hcode h
  have hmiss : lookup a { t with mode := .on } = none := lookup_of_lines_nil hnil
  obtain ⟨hmem, hcfg⟩ := memory_of_execCase (execCase_of_next h)
  have hback : backing a { t with mode := .on } = backing a s := backing_congr hmem
  obtain ⟨u, hu, hframe, hline, -⟩ :=
    (loadFollowsItsRule a { t with mode := .on }).miss h0 (hcfg ▸ hn) rfl (lookup_eq_none.mp hmiss)
  rw [hback] at hu hline
  exact ⟨u, hu, by rw [hframe], hcfg ▸ hline⟩

end Sys2Proof.Proofs
end

section
/-! PROOFS. The cache never shows outside the cache (R53, D7): states that differ in nothing but the cache run alike. -/

namespace Sys2Proof.Proofs

open Sys2Proof.Machine

/-! ## Results alike but for the cache -/

/-- Two rules' results that differ in nothing but the cache: such states, or the same raise. -/
inductive AlikeResults : Except FatalError State → Except FatalError State → Prop where
  | ok {s t : State} (h : SameButCache s t) : AlikeResults (.ok s) (.ok t)
  | error (e : FatalError) : AlikeResults (.error e) (.error e)

/-- Two steps' answers that differ in nothing but the cache: next states that do. -/
def AlikeSteps (o p : Host.Outcome State Fault Refusal) : Prop :=
  ∃ s t, o = .next s ∧ p = .next t ∧ SameButCache s t

section Rules

variable {s t : State}

/-- What touches the lines, the mode and the trace alone keeps two states alike. -/
theorem sameButCache_of_frame {s' t' : State} (h : SameButCache s t)
    (hs : s' = { s with lines := s'.lines, mode := s'.mode, trace := s'.trace })
    (ht : t' = { t with lines := t'.lines, mode := t'.mode, trace := t'.trace }) :
    SameButCache s' t' := by
  rw [hs, ht]
  exact ⟨h.x, h.pc, h.mem, h.halted, h.fault, h.cfg⟩

theorem raise_alike (e : FatalError) (h : SameButCache s t) :
    SameButCache (raise e s) (raise e t) :=
  ⟨h.x, h.pc, h.mem, h.halted, rfl, h.cfg⟩

theorem writePc_alike (v : Int) (h : SameButCache s t) : SameButCache (writePc v s) (writePc v t) :=
  ⟨h.x, rfl, h.mem, h.halted, h.fault, h.cfg⟩

theorem writeReg_alike (i : RegIdx) {v w : Word} (hv : v = w) (h : SameButCache s t) :
    SameButCache (writeReg i v s) (writeReg i w t) :=
  ⟨by rw [writeReg_x, writeReg_x, h.x, hv], h.pc, h.mem, h.halted, h.fault, h.cfg⟩

theorem readReg_alike (i : RegIdx) (h : SameButCache s t) : readReg i s = readReg i t := by
  rw [readReg, readReg, h.x]

theorem snapshot_alike (h : SameButCache s t) : SameButCache (snapshot s) (snapshot t) :=
  sameButCache_of_frame h rfl rfl

theorem advance_alike (h : SameButCache s t) : SameButCache (advance s) (advance t) := by
  rw [advance, advance, readPc_eq, readPc_eq, h.pc]
  exact writePc_alike _ h

theorem cacheControl_alike (c : Int) (h : SameButCache s t) :
    AlikeResults (cacheControl c s) (cacheControl c t) := by
  unfold cacheControl
  split
  · exact .ok (sameButCache_of_frame h rfl rfl)
  · split
    · exact .ok (sameButCache_of_frame h rfl rfl)
    · split
      · exact .ok (sameButCache_of_frame h rfl rfl)
      · exact .error _

/-- Operands are resolved without the state, so what follows them decides. -/
theorem map_alike {α : Type} {f g : α → State} (r : Except FatalError α)
    (h : ∀ o, SameButCache (f o) (g o)) : AlikeResults (r.map f) (r.map g) := by
  cases r with
  | ok o => exact .ok (h o)
  | error e => exact .error e

theorem bind_alike {α : Type} {f g : α → Except FatalError State} (r : Except FatalError α)
    (h : ∀ o, AlikeResults (f o) (g o)) : AlikeResults (r >>= f) (r >>= g) := by
  cases r with
  | ok o => exact h o
  | error e => exact .error e

theorem finish_alike {r q : Except FatalError State} (h : SameButCache s t)
    (hr : AlikeResults r q) : AlikeSteps (finish s r) (finish t q) := by
  cases hr with
  | ok hst => exact ⟨_, _, rfl, rfl, snapshot_alike (advance_alike hst)⟩
  | error e => exact ⟨_, _, rfl, rfl, raise_alike e h⟩

theorem finishRedirected_alike {r q : Except FatalError State} (h : SameButCache s t)
    (hr : AlikeResults r q) : AlikeSteps (finishRedirected s r) (finishRedirected t q) := by
  cases hr with
  | ok hst => exact ⟨_, _, rfl, rfl, snapshot_alike hst⟩
  | error e => exact ⟨_, _, rfl, rfl, raise_alike e h⟩

/-! ## Every instruction -/

theorem registerRule_alike (op : Token) (f : Word → Word → Word) (ops : List Token)
    (h : SameButCache s t) : AlikeSteps (registerRule op f ops s) (registerRule op f ops t) :=
  finish_alike h <| map_alike _ fun o =>
    writeReg_alike o.rd (by rw [readReg_alike o.rs h, readReg_alike o.rt h]) h

theorem execAddi_alike (ops : List Token) (h : SameButCache s t) :
    AlikeSteps (execAddi ops s) (execAddi ops t) :=
  finish_alike h <| map_alike _ fun o => writeReg_alike o.rt (by rw [readReg_alike o.rs h]) h

theorem unimplemented_alike (op : Token) (h : SameButCache s t) :
    AlikeSteps (unimplemented op s) (unimplemented op t) :=
  ⟨_, _, rfl, rfl, raise_alike _ h⟩

theorem execJ_alike (ops : List Token) (h : SameButCache s t) :
    AlikeSteps (execJ ops s) (execJ ops t) :=
  finishRedirected_alike h <| map_alike _ fun _ => writePc_alike _ h

theorem execCache_alike (ops : List Token) (h : SameButCache s t) :
    AlikeSteps (execCache ops s) (execCache ops t) :=
  finish_alike h <| bind_alike _ fun c => cacheControl_alike c h

theorem execHalt_alike (ops : List Token) (h : SameButCache s t) :
    AlikeSteps (execHalt ops s) (execHalt ops t) :=
  ⟨_, _, rfl, rfl, h.x, h.pc, h.mem, rfl, h.fault, h.cfg⟩

/-- No instruction looks at the lines, the mode or the trace. -/
theorem exec_alike (i : Instr) (h : SameButCache s t) : AlikeSteps (exec i s) (exec i t) := by
  cases i with
  | add ops => exact registerRule_alike _ _ ops h
  | sub ops => exact registerRule_alike _ _ ops h
  | slt ops => exact registerRule_alike _ _ ops h
  | addi ops => exact execAddi_alike ops h
  | j ops => exact execJ_alike ops h
  | bne ops => exact unimplemented_alike _ h
  | jal ops => exact unimplemented_alike _ h
  | lw ops => exact unimplemented_alike _ h
  | sw ops => exact unimplemented_alike _ h
  | cache ops => exact execCache_alike ops h
  | halt ops => exact execHalt_alike ops h

/-! ## The load and the step -/

theorem running_alike (h : SameButCache s t) (hs : Running s) : Running t :=
  ⟨h.halted ▸ hs.1, h.fault ▸ hs.2⟩

theorem inBounds_alike {a : Int} (h : SameButCache s t) : inBounds a s ↔ inBounds a t := by
  rw [inBounds, inBounds, h.cfg]

/-- Under the invariant both loads give the backing cell, whatever hits or misses. -/
theorem loadCell_alike {a : Int} {c : Cell} {u : State} (hs : Inv s) (ht : Inv t)
    (h : SameButCache s t) (load : loadCell a s = .ok (c, u)) :
    ∃ w, loadCell a t = .ok (c, w) ∧ SameButCache u w := by
  obtain ⟨hb, -⟩ := loadCell_ok load
  obtain ⟨u', hu'⟩ := loadCell_eq_backing hs hb
  obtain ⟨rfl, rfl⟩ : backing a s = c ∧ u' = u := by simpa using hu'.symm.trans load
  obtain ⟨w, hw⟩ := loadCell_eq_backing ht ((inBounds_alike h).mp hb)
  refine ⟨w, by rw [hw, backing_congr h.mem], ?_⟩
  rw [loadCell_frame load, loadCell_frame hw]
  exact sameButCache_of_frame h rfl rfl

/-- R152: a fetch outside memory raises over the state as it was. -/
theorem step_eq_of_outside (hs : Running s) (hout : ¬ inBounds s.pc s) :
    step s = .next (raise (.programCounterOutOfBounds s.pc) s) := by
  obtain ⟨hhalt, hfault⟩ := hs
  have hfetch : fetch s = .error (.programCounterOutOfBounds s.pc) := if_neg hout
  simp [step, hhalt, hfault, hfetch]

/-- R156: an opcode outside the vocabulary raises over the state the load left. -/
theorem step_eq_of_invalidOpcode {c : Cell} {u : State} {op : Token} (hs : Running s)
    (load : loadCell s.pc s = .ok (c, u)) (opcode : decode c = .error (.invalidOpcode op)) :
    step s = .next (raise (.invalidOpcode op) u) := by
  obtain ⟨hhalt, hfault⟩ := hs
  obtain ⟨hin, -⟩ := loadCell_ok load
  have hfetch : fetch s = .ok (c, u) := (fetch_of_inBounds hin).trans load
  simp [step, hhalt, hfault, hfetch, opcode]

end Rules

/-- Settles O50: both steps read the same cell, so they go the same way, and no instruction looks at the
cache. -/
theorem cacheIsTransparent : Obligations.CacheIsTransparent := by
  intro s t s' hs ht h hstep
  obtain ⟨hrun, hcase⟩ := step_cases hstep
  have hrunt := running_alike h hrun
  cases hcase with
  | unfetched outside =>
    rw [inBounds_alike h, h.pc] at outside
    exact ⟨_, step_eq_of_outside hrunt outside, h.pc ▸ raise_alike _ h⟩
  | undecoded c u op load opcode =>
    obtain ⟨w, hw, huw⟩ := loadCell_alike hs ht h load
    exact ⟨_, step_eq_of_invalidOpcode hrunt (h.pc ▸ hw) opcode, raise_alike _ huw⟩
  | executed c u s' i load instr effect =>
    obtain ⟨w, hw, huw⟩ := loadCell_alike hs ht h load
    obtain ⟨u', w', hu', hw', halike⟩ := exec_alike i huw
    obtain rfl : u' = s' := by simpa using hu'.symm.trans effect
    exact ⟨w', (step_eq_exec hrunt (h.pc ▸ hw) instr).trans hw', halike⟩

end Sys2Proof.Proofs
end

section
/-! PROOFS. The operand tokens of R79 and R80, and the operand layouts of R77 in terms of them. -/

namespace Sys2Proof.Proofs

open Sys2Proof.Machine

/-! ## The two operand grammars -/

theorem parseInt_eq_some_iff_denotes {tok : Token} {n : Int} : parseInt tok = some n ↔ Denotes tok n :=
  ⟨denotes_of_parseInt, parseInt_of_denotes⟩

theorem intOperand_of_noInteger {tok : Token} (h : NoInteger tok) :
    intOperand tok = .error (.invalidOperand tok) := by
  have hnone : parseInt tok = none :=
    Option.eq_none_iff_forall_ne_some.mpr fun n hn => h n (denotes_of_parseInt hn)
  rw [intOperand, hnone]

theorem parseReg_eq_some_iff {tok : Token} {i : RegIdx} : parseReg tok = some i ↔ tok = regName i :=
  ⟨regName_of_parseReg, fun h => h ▸ parseReg_regName i⟩

/-- Settles O14: the parser of integer tokens and the grammar agree in both directions. -/
theorem integerOperandGrammar : Obligations.IntegerOperandGrammar :=
  ⟨fun _ _ => intOperand_ok.trans parseInt_eq_some_iff_denotes, fun _ => intOperand_of_noInteger⟩

/-- Settles O15: a token is resolved to the register whose name it is. -/
theorem registerOperandNames : Obligations.RegisterOperandNames :=
  ⟨fun _ _ => regOperand_ok.trans parseReg_eq_some_iff, fun _ => regOperand_of_namesNoRegister⟩

/-! ## Integer tokens hold no comma -/

theorem commaFree_cons {c : Char} {t : Token} (hc : c ≠ ',') : commaFree (c :: t) = commaFree t := by
  simp [commaFree, hc]

theorem commaFree_of_digits {ds : Token} (h : ∀ c ∈ ds, c.isDigit = true) : commaFree ds = true := by
  refine List.all_eq_true.mpr fun c hc => bne_iff_ne.mpr ?_
  rintro rfl
  exact absurd (h ',' hc) (by decide)

theorem commaFree_of_parseInt {tok : Token} {n : Int} (h : parseInt tok = some n) :
    commaFree tok = true := by
  cases denotes_of_parseInt h with
  | plain ds _ hdigits => exact commaFree_of_digits hdigits
  | plus ds _ hdigits => exact (commaFree_cons (by decide)).trans (commaFree_of_digits hdigits)
  | minus ds _ hdigits => exact (commaFree_cons (by decide)).trans (commaFree_of_digits hdigits)

/-! ## What the operand layouts of R77 allow -/

section Layouts

variable {ops : List Token}

theorem isRegToken_iff {tok : Token} : isRegToken tok = true ↔ ∃ i, tok = regName i := by
  simp only [isRegToken, Option.isSome_iff_exists, parseReg_eq_some_iff]

theorem isThreeRegisters_iff :
    isThreeRegisters ops = true ↔ ∃ d a b, ops = [regName d, regName a, regName b] := by
  unfold isThreeRegisters
  split
  case h_1 rd rs rt => simp [isRegToken_iff, and_assoc]
  case h_2 hne => simpa using fun d a b h => hne _ _ _ h

theorem isRegisterImmediate_iff :
    isRegisterImmediate ops = true ↔
      ∃ d a imm n, ops = [regName d, regName a, imm] ∧ parseInt imm = some n := by
  unfold isRegisterImmediate
  split
  case h_1 rt rs imm => simp [isRegToken_iff, isIntToken, Option.isSome_iff_exists, and_assoc]
  case h_2 hne => simpa using fun d a imm h => absurd h (hne _ _ _)

theorem isTarget_iff : isTarget ops = true ↔ ∃ tok n, ops = [tok] ∧ parseInt tok = some n := by
  unfold isTarget
  split
  case h_1 tok => simp [isIntToken, Option.isSome_iff_exists]
  case h_2 hne => simpa using fun tok h => absurd h (hne _)

theorem isCode_iff :
    isCode ops = true ↔
      ∃ tok c, ops = [tok] ∧ parseInt tok = some c ∧ (c = 0 ∨ c = 1 ∨ c = 2) := by
  unfold isCode
  split
  case h_1 tok => simp [isCacheCode, and_or_left, exists_or, or_assoc]
  case h_2 hne => simpa using fun tok h => absurd h (hne _)

theorem commaFree_of_isThreeRegisters (h : isThreeRegisters ops = true) :
    ops.all commaFree = true := by
  obtain ⟨d, a, b, rfl⟩ := isThreeRegisters_iff.mp h
  simp [commaFree_regName]

theorem commaFree_of_isRegisterImmediate (h : isRegisterImmediate ops = true) :
    ops.all commaFree = true := by
  obtain ⟨d, a, imm, n, rfl, himm⟩ := isRegisterImmediate_iff.mp h
  simp [commaFree_regName, commaFree_of_parseInt himm]

theorem commaFree_of_isTarget (h : isTarget ops = true) : ops.all commaFree = true := by
  obtain ⟨tok, n, rfl, htok⟩ := isTarget_iff.mp h
  simp [commaFree_of_parseInt htok]

theorem commaFree_of_isCode (h : isCode ops = true) : ops.all commaFree = true := by
  obtain ⟨tok, c, rfl, htok, -⟩ := isCode_iff.mp h
  simp [commaFree_of_parseInt htok]

end Layouts

/-- A well-formed instruction's operands are pieces of a record: its layout allows no comma in them. -/
theorem commaFree_of_wellFormed {i : Instr} (h : i.wellFormed = true) : i.commaFree = true := by
  cases i with
  | add ops => exact commaFree_of_isThreeRegisters h
  | sub ops => exact commaFree_of_isThreeRegisters h
  | slt ops => exact commaFree_of_isThreeRegisters h
  | addi ops => exact commaFree_of_isRegisterImmediate h
  | j ops => exact commaFree_of_isTarget h
  | cache ops => exact commaFree_of_isCode h
  | bne ops => exact h
  | jal ops => exact h
  | lw ops => exact h
  | sw ops => exact h
  | halt ops => exact h

end Sys2Proof.Proofs
end

section
/-! PROOFS. The decoder and the encoder (R72 to R76, R84, R85). -/

namespace Sys2Proof.Proofs

open Sys2Proof.Machine

/-! ## The opcode map and the vocabulary -/

theorem classify_own_record (i : Instr) :
    classify { op := i.opToken, operands := i.operands } = .ok i := by
  cases i with
  | add ops => exact Laws.OpcodeMap.add ops
  | addi ops => exact Laws.OpcodeMap.addi ops
  | sub ops => exact Laws.OpcodeMap.sub ops
  | slt ops => exact Laws.OpcodeMap.slt ops
  | bne ops => exact Laws.OpcodeMap.bne ops
  | j ops => exact Laws.OpcodeMap.j ops
  | jal ops => exact Laws.OpcodeMap.jal ops
  | lw ops => exact Laws.OpcodeMap.lw ops
  | sw ops => exact Laws.OpcodeMap.sw ops
  | cache ops => exact Laws.OpcodeMap.cache ops
  | halt ops => exact Laws.OpcodeMap.halt ops

theorem opToken_mem_vocabulary (i : Instr) : i.opToken ∈ vocabulary := by
  cases i <;> simp [Instr.opToken, vocabulary]

/-- Every word of the vocabulary is the first token of an instruction, whatever the operands. -/
theorem exists_instr_of_mem_vocabulary {op : Token} (h : op ∈ vocabulary) (ops : List Token) :
    ∃ i : Instr, i.opToken = op ∧ i.operands = ops := by
  simp only [vocabulary, List.mem_cons, List.not_mem_nil, or_false] at h
  obtain rfl | rfl | rfl | rfl | rfl | rfl | rfl | rfl | rfl | rfl | rfl := h
  · exact ⟨.add ops, rfl, rfl⟩
  · exact ⟨.addi ops, rfl, rfl⟩
  · exact ⟨.sub ops, rfl, rfl⟩
  · exact ⟨.slt ops, rfl, rfl⟩
  · exact ⟨.bne ops, rfl, rfl⟩
  · exact ⟨.j ops, rfl, rfl⟩
  · exact ⟨.jal ops, rfl, rfl⟩
  · exact ⟨.lw ops, rfl, rfl⟩
  · exact ⟨.sw ops, rfl, rfl⟩
  · exact ⟨.cache ops, rfl, rfl⟩
  · exact ⟨.halt ops, rfl, rfl⟩

theorem classify_of_not_mem_vocabulary {r : RawInstr} (h : r.op ∉ vocabulary) :
    classify r = .error (.invalidOpcode r.op) := by
  simp only [vocabulary, List.mem_cons, not_or] at h
  simp only [classify, h, if_false]

/-- The opcode map sends to an instruction its own first token and operands, and nothing else. -/
theorem classify_eq_ok_iff {r : RawInstr} {i : Instr} :
    classify r = .ok i ↔ r = { op := i.opToken, operands := i.operands } := by
  refine ⟨fun h => ?_, fun h => h ▸ classify_own_record i⟩
  obtain ⟨op, ops⟩ := r
  by_cases hop : op ∈ vocabulary
  · obtain ⟨j, rfl, rfl⟩ := exists_instr_of_mem_vocabulary hop ops
    obtain rfl : j = i := Except.ok.inj ((classify_own_record j).symm.trans h)
    rfl
  · cases (classify_of_not_mem_vocabulary hop).symm.trans h

/-- R75: `is_valid` holds of exactly the records that the opcode map sends to an instruction. -/
theorem exists_classify_iff_isValid {r : RawInstr} :
    (∃ i, classify r = .ok i) ↔ isValid r = true := by
  simp only [classify_eq_ok_iff, isValid, decide_eq_true_eq]
  constructor
  · rintro ⟨i, rfl⟩
    exact opToken_mem_vocabulary i
  · intro hop
    obtain ⟨i, hi, hops⟩ := exists_instr_of_mem_vocabulary hop r.operands
    exact ⟨i, by rw [hi, hops]⟩

/-- No word of the vocabulary is an integer token. -/
theorem parseInt_of_mem_vocabulary : ∀ op ∈ vocabulary, parseInt op = none := by decide

theorem showInt_not_mem_vocabulary (n : Int) : showInt n ∉ vocabulary := fun h => by
  simpa [parseInt_showInt] using parseInt_of_mem_vocabulary _ h

/-! ## The raw record of a cell -/

theorem decodeRecord_int_of_ne_zero {w : Word} (h : w ≠ 0) :
    decodeRecord (.int w) = { op := showInt w.toInt, operands := [] } := if_neg h

/-- R73: an unwritten cell is HALT. -/
theorem decode_int_zero : decode (.int 0) = .ok (.halt []) := rfl

/-- R74: but for the sentinel, a text's tokens are what its commas cut it into. -/
theorem decodeRecord_text {s op : Token} {ops : List Token} (hs : s ≠ textSentinel)
    (h : splitCommas s = op :: ops) : decodeRecord (.text s) = { op := op, operands := ops } := by
  rw [decodeRecord, if_neg hs, h]

/-- Settles O13: the opcode map decides by the vocabulary alone, and no word of it is a shown integer. -/
theorem vocabularyDecides : Obligations.VocabularyDecides := by
  refine ⟨fun c => exists_classify_iff_isValid, fun c hc => ?_, fun w hw => ?_⟩
  · exact classify_of_not_mem_vocabulary (of_decide_eq_false hc)
  · rw [decode, decodeRecord_int_of_ne_zero hw]
    exact classify_of_not_mem_vocabulary (showInt_not_mem_vocabulary w.toInt)

/-! ## The record of an instruction -/

theorem commaFree_opToken (i : Instr) : commaFree i.opToken = true := by
  cases i <;> rfl

theorem opToken_ne_textSentinel (i : Instr) : i.opToken ≠ textSentinel := fun h =>
  absurd (h ▸ opToken_mem_vocabulary i) (by decide)

theorem splitCommas_own_record {i : Instr} (h : i.commaFree = true) :
    splitCommas (joinCommas (i.opToken :: i.operands)) = i.opToken :: i.operands :=
  splitCommas_joinCommas (by simp) <|
    List.forall_mem_cons.mpr ⟨commaFree_opToken i, List.all_eq_true.mp h⟩

/-- No record written from an instruction is the sentinel: its first token is another. -/
theorem own_record_ne_textSentinel {i : Instr} (h : i.commaFree = true) :
    joinCommas (i.opToken :: i.operands) ≠ textSentinel := fun heq => by
  have hsplit : i.opToken :: i.operands = [textSentinel] :=
    (splitCommas_own_record h).symm.trans (congrArg splitCommas heq)
  exact opToken_ne_textSentinel i (List.cons.inj hsplit).1

theorem decode_encode {i : Instr} (h : i.commaFree = true) : decode (encode i) = .ok i := by
  rw [decode, encode, decodeRecord_text (own_record_ne_textSentinel h) (splitCommas_own_record h)]
  exact classify_own_record i

/-- Settles O11: the commas of a record are cut where they were put, and the opcode map sends the first
token back to its instruction. -/
theorem decodeOfEncode : Obligations.DecodeOfEncode :=
  ⟨fun _ => commaFree_of_wellFormed, fun _ => decode_encode⟩

/-! ## The instruction of a record -/

/-- The pieces of a record hold no comma. -/
theorem commaFree_of_mem_splitCommas {s : Token} : ∀ t ∈ splitCommas s, commaFree t = true := by
  induction s with
  | nil => simp [splitCommas, commaFree]
  | cons c cs ih =>
    rw [splitCommas]
    split
    case isTrue => exact List.forall_mem_cons.mpr ⟨rfl, ih⟩
    case isFalse hc =>
      split
      case h_1 hnil => exact absurd hnil (splitCommas_ne_nil cs)
      case h_2 t ts hsplit =>
        rw [hsplit, List.forall_mem_cons] at ih
        obtain ⟨ht, hts⟩ := ih
        exact List.forall_mem_cons.mpr ⟨(commaFree_cons hc).trans ht, hts⟩

/-- But for the sentinel, a text that decodes to an instruction is cut into its first token and operands. -/
theorem splitCommas_of_decode {s : Token} {i : Instr} (hs : s ≠ textSentinel)
    (h : decode (.text s) = .ok i) : splitCommas s = i.opToken :: i.operands := by
  obtain ⟨op, ops, hsplit⟩ := List.exists_cons_of_ne_nil (splitCommas_ne_nil s)
  rw [decode, decodeRecord_text hs hsplit, classify_eq_ok_iff] at h
  obtain ⟨rfl, rfl⟩ := RawInstr.mk.inj h
  exact hsplit

/-- Settles O12: the tokens the decoder cut, put together again, are the text. -/
theorem encodeOfDecode : Obligations.EncodeOfDecode := by
  intro s i hs h
  have hsplit := splitCommas_of_decode hs h
  refine ⟨by rw [encode, ← hsplit, joinCommas_splitCommas], List.all_eq_true.mpr fun t ht => ?_⟩
  exact commaFree_of_mem_splitCommas t (hsplit ▸ List.mem_cons_of_mem _ ht)

/-- Settles O17: each text is the record of its instruction, and the unwritten cell is HALT. -/
theorem writtenRecordsDecode : Obligations.WrittenRecordsDecode :=
  ⟨decode_encode (i := .add ["R3".toList, "R1".toList, "R2".toList]) rfl,
    decode_encode (i := .addi ["R1".toList, "R0".toList, "-3".toList]) rfl,
    decode_encode (i := .j ["2".toList]) rfl,
    decode_encode (i := .bne ["R1".toList, "R2".toList, "3".toList]) rfl,
    decode_encode (i := .lw ["R1".toList, "0(R2)".toList]) rfl,
    decode_encode (i := .cache ["1".toList]) rfl,
    decode_int_zero⟩

end Sys2Proof.Proofs
end

section
/-! PROOFS. When an instruction raises nothing (R78 to R80, R52), and the step at an unwritten cell (R73). -/

namespace Sys2Proof.Proofs

open Sys2Proof.Machine

/-! ## Results of a rule -/

section Results

variable {α β : Type} {r : Except FatalError α} {b : β}

theorem map_eq_ok_iff {f : α → β} : r.map f = .ok b ↔ ∃ a, r = .ok a ∧ f a = b := by
  cases r <;> simp [Except.map]

theorem bind_eq_ok_iff {f : α → Except FatalError β} :
    (r >>= f) = .ok b ↔ ∃ a, r = .ok a ∧ f a = .ok b := by
  cases r <;> simp [bind, Except.bind]

end Results

/-! ## When the operands resolve -/

section Operands

variable {op : Token} {ops : List Token}

theorem exists_threeRegs_iff :
    (∃ o, threeRegs op ops = .ok o) ↔ isThreeRegisters ops = true := by
  rw [isThreeRegisters_iff]
  constructor
  · rintro ⟨o, h⟩
    obtain ⟨rd, rs, rt, rfl, hd, hs, ht⟩ := threeRegs_ok h
    exact ⟨o.rd, o.rs, o.rt, by
      rw [regName_of_parseReg hd, regName_of_parseReg hs, regName_of_parseReg ht]⟩
  · rintro ⟨d, a, b, rfl⟩
    exact ⟨⟨d, a, b⟩, by simp [threeRegs, bind, Except.bind, pure, Except.pure]⟩

theorem exists_regImm_iff :
    (∃ o, regImm op ops = .ok o) ↔ isRegisterImmediate ops = true := by
  rw [isRegisterImmediate_iff]
  constructor
  · rintro ⟨o, h⟩
    obtain ⟨rt, rs, imm, rfl, hd, hs, himm⟩ := regImm_ok h
    exact ⟨o.rt, o.rs, imm, o.imm, by rw [regName_of_parseReg hd, regName_of_parseReg hs], himm⟩
  · rintro ⟨d, a, imm, n, rfl, himm⟩
    exact ⟨⟨d, a, n⟩, by
      simp [regImm, intOperand_ok.mpr himm, bind, Except.bind, pure, Except.pure]⟩

theorem exists_oneInt_iff : (∃ n, oneInt op ops = .ok n) ↔ isTarget ops = true := by
  rw [isTarget_iff]
  constructor
  · rintro ⟨n, h⟩
    obtain ⟨tok, rfl, htok⟩ := oneInt_ok h
    exact ⟨tok, n, rfl, htok⟩
  · rintro ⟨tok, n, rfl, htok⟩
    exact ⟨n, intOperand_ok.mpr htok⟩

/-- R52: the mode machine takes the codes 0, 1 and 2. -/
theorem exists_cacheControl_iff {c : Int} {s : State} :
    (∃ t, cacheControl c s = .ok t) ↔ c = 0 ∨ c = 1 ∨ c = 2 := by
  constructor
  · rintro ⟨t, h⟩
    exact (cacheControl_ok h).imp And.left (Or.imp And.left And.left)
  · rintro (rfl | rfl | rfl) <;> exact ⟨_, rfl⟩

/-- R140: CACHE's rule succeeds exactly on a single token that is a cache code. -/
theorem exists_cacheRule_iff {s : State} :
    (∃ t, (oneInt op ops >>= fun c => cacheControl c s) = .ok t) ↔ isCode ops = true := by
  rw [isCode_iff]
  constructor
  · rintro ⟨t, h⟩
    obtain ⟨c, hc, ht⟩ := bind_eq_ok_iff.mp h
    obtain ⟨tok, rfl, htok⟩ := oneInt_ok hc
    exact ⟨tok, c, rfl, htok, exists_cacheControl_iff.mp ⟨t, ht⟩⟩
  · rintro ⟨tok, c, rfl, htok, hc⟩
    obtain ⟨t, ht⟩ := (exists_cacheControl_iff (s := s)).mpr hc
    exact ⟨t, bind_eq_ok_iff.mpr ⟨c, intOperand_ok.mpr htok, ht⟩⟩

end Operands

/-! ## When an instruction raises nothing -/

/-- The outcome is a next state, and it has no fault exactly when `p` holds. -/
def RaisesNothingIff (o : Host.Outcome State Fault Refusal) (p : Prop) : Prop :=
  ∃ t, o = .next t ∧ (t.fault = none ↔ p)

section Exec

variable {α : Type} {s : State} {p : Prop}

/-- A rule that does not itself touch the fault field raises nothing exactly when it succeeds, however
its step ends. -/
theorem raisesNothingIff_of_cases {o : Host.Outcome State Fault Refusal}
    {r : Except FatalError State} {ending : State → State}
    (hending : ∀ t, (ending t).fault = t.fault)
    (hcases : (∃ t, r = .ok t ∧ o = .next (ending t)) ∨ ∃ e, r = .error e ∧ o = .next (raise e s))
    (hr : ∀ t, r = .ok t → t.fault = none) (hp : (∃ t, r = .ok t) ↔ p) : RaisesNothingIff o p := by
  rw [← hp]
  obtain ⟨t, rfl, rfl⟩ | ⟨e, rfl, rfl⟩ := hcases
  · exact ⟨_, rfl, iff_of_true ((hending t).trans (hr t rfl)) ⟨t, rfl⟩⟩
  · exact ⟨_, rfl, by simp⟩

theorem finish_raisesNothingIff {r : Except FatalError State}
    (hr : ∀ t, r = .ok t → t.fault = none) (hp : (∃ t, r = .ok t) ↔ p) :
    RaisesNothingIff (finish s r) p :=
  raisesNothingIff_of_cases (ending := fun t => snapshot (advance t)) (fun _ => rfl)
    (finish_cases s r) hr hp

theorem finishRedirected_raisesNothingIff {r : Except FatalError State}
    (hr : ∀ t, r = .ok t → t.fault = none) (hp : (∃ t, r = .ok t) ↔ p) :
    RaisesNothingIff (finishRedirected s r) p :=
  raisesNothingIff_of_cases (ending := snapshot) (fun _ => rfl) (finishRedirected_cases s r) hr hp

/-- What a rule does with its resolved operands adds no way to fail. -/
theorem exists_map_ok_iff {f : α → State} {r : Except FatalError α} :
    (∃ t, r.map f = .ok t) ↔ ∃ o, r = .ok o := by
  simp [map_eq_ok_iff]

theorem fault_of_map_ok {f : α → State} {r : Except FatalError α}
    (hf : ∀ o, (f o).fault = none) (t : State) (h : r.map f = .ok t) : t.fault = none := by
  obtain ⟨o, -, rfl⟩ := map_eq_ok_iff.mp h
  exact hf o

theorem registerRule_raisesNothingIff (op : Token) (f : Word → Word → Word) (ops : List Token)
    (hs : s.fault = none) :
    RaisesNothingIff (registerRule op f ops s) (isThreeRegisters ops = true) :=
  finish_raisesNothingIff (fault_of_map_ok fun _ => hs)
    (exists_map_ok_iff.trans exists_threeRegs_iff)

theorem execAddi_raisesNothingIff (ops : List Token) (hs : s.fault = none) :
    RaisesNothingIff (execAddi ops s) (isRegisterImmediate ops = true) :=
  finish_raisesNothingIff (fault_of_map_ok fun _ => hs)
    (exists_map_ok_iff.trans exists_regImm_iff)

theorem execJ_raisesNothingIff (ops : List Token) (hs : s.fault = none) :
    RaisesNothingIff (execJ ops s) (isTarget ops = true) :=
  finishRedirected_raisesNothingIff (fault_of_map_ok fun _ => hs)
    (exists_map_ok_iff.trans exists_oneInt_iff)

theorem execCache_raisesNothingIff (ops : List Token) (hs : s.fault = none) :
    RaisesNothingIff (execCache ops s) (isCode ops = true) := by
  refine finish_raisesNothingIff (fun t ht => ?_) exists_cacheRule_iff
  obtain ⟨c, -, hc⟩ := bind_eq_ok_iff.mp ht
  obtain ⟨text, hframe⟩ := cacheControl_frame hc
  rw [hframe]
  exact hs

/-- HALT never raises, and its layout allows any pieces of a record. -/
theorem execHalt_raisesNothingIff {ops : List Token} (hops : ops.all commaFree = true)
    (hs : s.fault = none) : RaisesNothingIff (execHalt ops s) (ops.all commaFree = true) :=
  ⟨_, rfl, iff_of_true hs hops⟩

end Exec

/-- Settles O9: the rule of each format succeeds exactly on the operands its layout allows. -/
theorem raisesNothingIffWellFormed : Obligations.RaisesNothingIffWellFormed := by
  intro i s hcomma hs hbne hjal hlw hsw
  cases i with
  | add ops => exact registerRule_raisesNothingIff _ _ ops hs
  | sub ops => exact registerRule_raisesNothingIff _ _ ops hs
  | slt ops => exact registerRule_raisesNothingIff _ _ ops hs
  | addi ops => exact execAddi_raisesNothingIff ops hs
  | j ops => exact execJ_raisesNothingIff ops hs
  | cache ops => exact execCache_raisesNothingIff ops hs
  | halt ops => exact execHalt_raisesNothingIff hcomma hs
  | bne ops => exact absurd rfl (hbne ops)
  | jal ops => exact absurd rfl (hjal ops)
  | lw ops => exact absurd rfl (hlw ops)
  | sw ops => exact absurd rfl (hsw ops)

/-! ## The unwritten cell -/

/-- Settles O35: by coherence the fetch reads `Int 0` in either mode, and HALT sets the flag alone. -/
theorem unwrittenCellHalts : Obligations.UnwrittenCellHalts := by
  intro s hinv hrun h0 hn hcell
  obtain ⟨u, hload⟩ := loadCell_eq_backing hinv ⟨h0, hn⟩
  rw [hcell] at hload
  refine ⟨enterHalted u, step_eq_exec hrun hload decode_int_zero, ?_⟩
  rw [loadCell_frame hload]
  exact ⟨rfl, hrun.2, rfl, rfl, rfl, rfl⟩

end Sys2Proof.Proofs
end

section
/-! PROOFS. ADD, ADDI, SUB and SLT against their rules (R100 to R105). -/

namespace Sys2Proof.Proofs

open Sys2Proof.Machine

/-! ## What the ALU computes, on integers -/

/-- R9: the word that wrapping gives stands for the integer of the written-out formula. -/
theorem toInt_wrap (v : Int) : (wrap v).toInt = wrapValue v := by
  rw [wrap, BitVec.toInt_ofInt, wrapValue, Int.bmod_def]
  split <;> omega

theorem wrapValue_of_inRange {n : Int} (hlow : -2 ^ 31 ≤ n) (hhigh : n < 2 ^ 31) : wrapValue n = n := by
  have hmod : (n + 2 ^ 31) % 2 ^ 32 = n + 2 ^ 31 := Int.emod_eq_of_lt (by omega) (by omega)
  rw [wrapValue, hmod, add_sub_cancel_right]

theorem toInt_aluAdd (a b : Word) : (aluAdd a b).toInt = wrapValue (a.toInt + b.toInt) := toInt_wrap _

theorem toInt_aluSub (a b : Word) : (aluSub a b).toInt = wrapValue (a.toInt - b.toInt) := toInt_wrap _

theorem toInt_aluAddi (a : Word) (n : Int) : (aluAddi a n).toInt = wrapValue (a.toInt + n) := toInt_wrap _

theorem toInt_aluSlt (a b : Word) : (aluSlt a b).toInt = if a.toInt < b.toInt then 1 else 0 := by
  rw [aluSlt]
  split <;> rfl

/-- Settles O10: every function but `alu_slt` is the exact result, wrapped. -/
theorem aluFunctionsWrap : Obligations.AluFunctionsWrap := fun a b n =>
  ⟨toInt_aluAdd a b, toInt_aluSub a b, toInt_aluAddi a n, toInt_aluSlt a b, wrapValue_of_inRange⟩

/-! ## The record of an instruction with three operands -/

theorem decode_three_operands {i : Instr} {a b c : Token} (hops : i.operands = [a, b, c])
    (ha : commaFree a = true) (hb : commaFree b = true) (hc : commaFree c = true) :
    decode (.text (i.opToken ++ ',' :: a ++ ',' :: b ++ ',' :: c)) = .ok i := by
  have hrecord : encode i = .text (i.opToken ++ ',' :: a ++ ',' :: b ++ ',' :: c) := by
    simp [encode, hops, joinCommas]
  rw [← hrecord]
  exact decode_encode (by simp [Instr.commaFree, hops, ha, hb, hc])

/-! ## The operands, resolved in their order or refused (R78, R180) -/

section Operands

variable {op : Token} {a b d : RegIdx} {n : Int}

theorem threeRegs_regNames : threeRegs op [regName d, regName a, regName b] = .ok ⟨d, a, b⟩ := by
  simp [threeRegs, bind, Except.bind, pure, Except.pure]

theorem threeRegs_of_length_ne {ops : List Token} (h : ops.length ≠ 3) :
    threeRegs op ops = .error (.operandCountMismatch op ops.length) := by
  unfold threeRegs
  split
  case h_1 => exact absurd rfl h
  case h_2 => rfl

theorem threeRegs_of_rs {rd rs rt : Token} (h : NamesNoRegister rs) :
    threeRegs op [rd, rs, rt] = .error (.unknownRegister rs) := by
  simp [threeRegs, regOperand_of_namesNoRegister h, bind, Except.bind]

theorem threeRegs_of_rt {rd rt : Token} (h : NamesNoRegister rt) :
    threeRegs op [rd, regName a, rt] = .error (.unknownRegister rt) := by
  simp [threeRegs, regOperand_of_namesNoRegister h, bind, Except.bind]

theorem threeRegs_of_rd {rd : Token} (h : NamesNoRegister rd) :
    threeRegs op [rd, regName a, regName b] = .error (.unknownRegister rd) := by
  simp [threeRegs, regOperand_of_namesNoRegister h, bind, Except.bind]

theorem intOperand_of_denotes {tok : Token} (h : Denotes tok n) : intOperand tok = .ok n :=
  intOperand_ok.mpr (parseInt_of_denotes h)

theorem regImm_of_denotes {imm : Token} (h : Denotes imm n) :
    regImm op [regName d, regName a, imm] = .ok ⟨d, a, n⟩ := by
  simp [regImm, intOperand_of_denotes h, bind, Except.bind, pure, Except.pure]

theorem regImm_of_length_ne {ops : List Token} (h : ops.length ≠ 3) :
    regImm op ops = .error (.operandCountMismatch op ops.length) := by
  unfold regImm
  split
  case h_1 => exact absurd rfl h
  case h_2 => rfl

theorem regImm_of_rs {rt rs imm : Token} (h : NamesNoRegister rs) :
    regImm op [rt, rs, imm] = .error (.unknownRegister rs) := by
  simp [regImm, regOperand_of_namesNoRegister h, bind, Except.bind]

theorem regImm_of_imm {rt imm : Token} (h : NoInteger imm) :
    regImm op [rt, regName a, imm] = .error (.invalidOperand imm) := by
  simp [regImm, intOperand_of_noInteger h, bind, Except.bind]

theorem regImm_of_rt {rt imm : Token} (himm : Denotes imm n) (h : NamesNoRegister rt) :
    regImm op [rt, regName a, imm] = .error (.unknownRegister rt) := by
  simp [regImm, intOperand_of_denotes himm, regOperand_of_namesNoRegister h, bind, Except.bind]

end Operands

/-! ## The end of an ALU instruction -/

section Ending

variable {α : Type} {r : Except FatalError α} {s : State}

/-- Operands that do not resolve change the fault field alone. -/
theorem finish_map_of_error {f : α → State} {e : FatalError} (h : r = .error e) :
    finish s (r.map f) = .next { s with fault := some e } := by
  rw [h]
  rfl

/-- Writing one register, then the run loop's advance and snapshot, is the whole effect R159 and R160 allow. -/
theorem registerResult_of_writeReg (d : RegIdx) (v : Word) (s : State) :
    RegisterResult d v.toInt s (snapshot (advance (writeReg d v s))) where
  value := congrArg BitVec.toInt readReg_writeReg_same
  others := fun _ => readReg_writeReg_other
  rest := rfl

theorem finish_map_of_ok {d : α → RegIdx} {v : α → Word} {o : α} {n : Int} (h : r = .ok o)
    (hv : (v o).toInt = n) :
    ∃ t, finish s (r.map fun o => writeReg (d o) (v o) s) = .next t ∧ RegisterResult (d o) n s t := by
  subst h hv
  exact ⟨_, rfl, registerResult_of_writeReg (d o) (v o) s⟩

end Ending

/-! ## The rules -/

/-- The rule ADD, SUB and SLT share: an instruction that runs `registerRule` with a function of words whose
integer is `f` of its operands' integers follows the rule for `f`. -/
theorem threeRegisterRule_of_exec {mk : List Token → Instr} {op : Token} {f : Int → Int → Int}
    {g : Word → Word → Word} (hop : ∀ ops, (mk ops).opToken = op) (hops : ∀ ops, (mk ops).operands = ops)
    (hexec : ∀ ops s, exec (mk ops) s = registerRule op g ops s)
    (hg : ∀ a b, (g a b).toInt = f a.toInt b.toInt) : ThreeRegisterRule op mk f where
  decodes := fun rd rs rt hd hs ht => hop [rd, rs, rt] ▸ decode_three_operands (hops _) hd hs ht
  result := fun s _ _ _ => hexec _ s ▸ finish_map_of_ok threeRegs_regNames (hg _ _)
  countFault := fun s ops h => (hexec ops s).trans (finish_map_of_error (threeRegs_of_length_ne h))
  rsFault := fun s _ _ _ h => (hexec _ s).trans (finish_map_of_error (threeRegs_of_rs h))
  rtFault := fun s _ _ _ h => (hexec _ s).trans (finish_map_of_error (threeRegs_of_rt h))
  rdFault := fun s _ _ _ h => (hexec _ s).trans (finish_map_of_error (threeRegs_of_rd h))

/-- Settles O1: ADD runs the shared rule with the wrapped sum. -/
theorem addFollowsItsRule : Obligations.AddFollowsItsRule :=
  threeRegisterRule_of_exec (fun _ => rfl) (fun _ => rfl) (fun _ _ => rfl) toInt_aluAdd

/-- Settles O3: SUB runs the shared rule with the wrapped difference. -/
theorem subFollowsItsRule : Obligations.SubFollowsItsRule :=
  threeRegisterRule_of_exec (fun _ => rfl) (fun _ => rfl) (fun _ _ => rfl) toInt_aluSub

/-- Settles O4: SLT runs the shared rule with the signed comparison. -/
theorem sltFollowsItsRule : Obligations.SltFollowsItsRule :=
  threeRegisterRule_of_exec (fun _ => rfl) (fun _ => rfl) (fun _ _ => rfl) toInt_aluSlt

/-- Settles O2: one clause for each way the operands resolve or fail to. -/
theorem addiFollowsItsRule : Obligations.AddiFollowsItsRule where
  decodes := fun rt rs imm => decode_three_operands (i := .addi [rt, rs, imm]) rfl
  result := fun _ _ _ _ _ himm => finish_map_of_ok (regImm_of_denotes himm) (toInt_aluAddi _ _)
  countFault := fun _ _ h => finish_map_of_error (regImm_of_length_ne h)
  rsFault := fun _ _ _ _ h => finish_map_of_error (regImm_of_rs h)
  immFault := fun _ _ _ _ h => finish_map_of_error (regImm_of_imm h)
  rtFault := fun _ _ _ _ _ himm h => finish_map_of_error (regImm_of_rt himm h)

end Sys2Proof.Proofs
end

section
/-! PROOFS. J and the unimplemented BNE, JAL, LW and SW against their rules (R120 to R122, R130, R131, R157). -/

namespace Sys2Proof.Proofs

open Sys2Proof.Machine

/-! ## The record of J and its operand (R77, R78, R80) -/

theorem decode_one_operand {i : Instr} {a : Token} (hops : i.operands = [a])
    (ha : commaFree a = true) : decode (.text (i.opToken ++ ',' :: a)) = .ok i := by
  have hrecord : encode i = .text (i.opToken ++ ',' :: a) := by simp [encode, hops, joinCommas]
  rw [← hrecord]
  exact decode_encode (by simp [Instr.commaFree, hops, ha])

section Operand

variable {op tok : Token}

theorem oneInt_of_denotes {n : Int} (h : Denotes tok n) : oneInt op [tok] = .ok n :=
  intOperand_of_denotes h

theorem oneInt_of_noInteger (h : NoInteger tok) : oneInt op [tok] = .error (.invalidOperand tok) :=
  intOperand_of_noInteger h

theorem oneInt_of_length_ne {ops : List Token} (h : ops.length ≠ 1) :
    oneInt op ops = .error (.operandCountMismatch op ops.length) := by
  unfold oneInt
  split
  case h_1 => exact absurd rfl h
  case h_2 => rfl

end Operand

/-! ## The redirect -/

section Jump

variable {ops : List Token} {target : Token} {n : Int} {s t : State}

/-- R120, R159, R160: the target, scaled exactly, becomes the PC; there is no advance before the snapshot. -/
theorem exec_j_of_denotes (h : Denotes target n) :
    exec (.j [target]) s = .next { s with pc := n * 4, trace := s.trace ++ [.snapshot s.x] } := by
  rw [exec, execJ, oneInt_of_denotes h]
  rfl

/-- An operand list that does not resolve changes the fault field alone. -/
theorem exec_j_of_error {e : FatalError} (h : oneInt "J".toList ops = .error e) :
    exec (.j ops) s = .next { s with fault := some e } := by
  rw [exec, execJ, h]
  rfl

/-- R120, R152, R153: a jump keeps the core RUNNING, so the bound its target escaped is checked by the next
fetch, against the capacity the jump left alone. -/
theorem next_fetch_of_exec_j (hs : Running s) (h : Denotes target n)
    (hexec : exec (.j [target]) s = .next t) :
    (¬ (0 ≤ n * 4 ∧ n * 4 < s.cfg.memCapacity) →
      step t = .next { t with fault := some (.programCounterOutOfBounds (n * 4)) }) ∧
    (0 ≤ n * 4 → n * 4 < s.cfg.memCapacity → fetch t = loadCell (n * 4) t) := by
  obtain ⟨hpc, hcfg, hrun⟩ : t.pc = n * 4 ∧ t.cfg = s.cfg ∧ Running t := by
    obtain rfl := Host.Outcome.next.inj ((exec_j_of_denotes h).symm.trans hexec)
    exact ⟨rfl, rfl, hs⟩
  rw [← hpc, ← hcfg]
  exact ⟨step_eq_of_outside hrun, fun hlow hhigh => fetch_of_inBounds ⟨hlow, hhigh⟩⟩

end Jump

/-- Settles O5: the redirect, one clause for each way the operand fails to resolve, and the next fetch. -/
theorem jumpFollowsItsRule : Obligations.JumpFollowsItsRule where
  decodes := fun target => decode_one_operand (i := .j [target]) rfl
  result := fun _ _ _ => exec_j_of_denotes
  countFault := fun _ _ h => exec_j_of_error (oneInt_of_length_ne h)
  targetFault := fun _ _ h => exec_j_of_error (oneInt_of_noInteger h)
  nextFetch := fun _ _ _ _ => next_fetch_of_exec_j

/-! ## The opcodes without a meaning -/

/-- R150, R170: no step follows a raise. -/
theorem step_raise_ne_next (e : FatalError) (s u : State) : step (raise e s) ≠ .next u := fun h => by
  obtain ⟨⟨-, hfault⟩, -⟩ := step_cases h
  simp at hfault

/-- R157: an instruction whose meaning is `unimplemented` of its own opcode follows the rule the four share. -/
theorem unimplementedRule_of_exec {mk : List Token → Instr} {op : Token}
    (hop : ∀ ops, (mk ops).opToken = op) (hops : ∀ ops, (mk ops).operands = ops)
    (hexec : ∀ ops s, exec (mk ops) s = unimplemented op s) : UnimplementedRule op mk where
  decodes := fun ops h => by
    have hcomma : (mk ops).commaFree = true := by rwa [Instr.commaFree, hops, List.all_eq_true]
    have hrecord : encode (mk ops) = .text (joinCommas (op :: ops)) := by rw [encode, hop, hops]
    exact hrecord ▸ decode_encode hcomma
  raises := fun s ops => hexec ops s
  fatal := fun s t u ops h => by
    obtain rfl := Host.Outcome.next.inj ((hexec ops s).symm.trans h)
    exact step_raise_ne_next _ s u

/-- Settles O6: each of the four runs `unimplemented` of its own opcode. -/
theorem unimplementedOpcodesRaise : Obligations.UnimplementedOpcodesRaise :=
  ⟨unimplementedRule_of_exec (fun _ => rfl) (fun _ => rfl) (fun _ _ => rfl),
    unimplementedRule_of_exec (fun _ => rfl) (fun _ => rfl) (fun _ _ => rfl),
    unimplementedRule_of_exec (fun _ => rfl) (fun _ => rfl) (fun _ _ => rfl),
    unimplementedRule_of_exec (fun _ => rfl) (fun _ => rfl) (fun _ _ => rfl)⟩

end Sys2Proof.Proofs
end

section
/-! PROOFS. CACHE and HALT against their rules (R52, R140, R141). -/

namespace Sys2Proof.Proofs

open Sys2Proof.Machine

/-- R45, R161: where its own fetch misses, an instruction runs over the state with its line filled. -/
theorem step_eq_exec_of_miss {i : Instr} {s : State} (hs : Running s) (hon : s.mode = .on)
    (hb : inBounds s.pc s) (hmiss : lookup s.pc s = none) (instr : decode (backing s.pc s) = .ok i) :
    step s = exec i (emit (.cacheFill s.pc) (setLine s.pc (backing s.pc s) s)) :=
  step_eq_exec hs (loadCell_of_miss hb hon hmiss) instr

/-! ## CACHE -/

section Cache

variable {ops : List Token} {code : Token} {s : State}

/-- R159, R160: after a notification the run loop advances, and its snapshot comes second. -/
theorem finish_notified (text : Token) (s u : State) :
    finish s (.ok (emit (.notify text) u)) =
      .next { u with pc := u.pc + 1, trace := u.trace ++ [.notify text, .snapshot u.x] } := by
  have htrace : u.trace ++ [.notify text, .snapshot u.x] =
      u.trace ++ [.notify text] ++ [.snapshot u.x] := by simp
  rw [htrace]
  rfl

theorem exec_cache_off (h : Denotes code 0) :
    exec (.cache [code]) s =
      .next { s with pc := s.pc + 1, mode := .off, lines := []
                     trace := s.trace ++ [.notify "Cache OFF".toList, .snapshot s.x] } :=
  (exec_cache_of_denotes s h).trans (finish_notified _ s { clearLines s with mode := .off })

theorem exec_cache_on (h : Denotes code 1) :
    exec (.cache [code]) s =
      .next { s with pc := s.pc + 1, mode := .on
                     trace := s.trace ++ [.notify "Cache ON".toList, .snapshot s.x] } :=
  (exec_cache_of_denotes s h).trans (finish_notified _ s { s with mode := .on })

theorem exec_cache_flush (h : Denotes code 2) :
    exec (.cache [code]) s =
      .next { s with pc := s.pc + 1, lines := []
                     trace := s.trace ++ [.notify "Cache FLUSHED".toList, .snapshot s.x] } :=
  (exec_cache_of_denotes s h).trans (finish_notified _ s (clearLines s))

/-- An operand list that does not resolve changes the fault field alone. -/
theorem exec_cache_of_error {e : FatalError} (h : oneInt "CACHE".toList ops = .error e) :
    exec (.cache ops) s = .next { s with fault := some e } := by
  rw [exec, execCache, h]
  rfl

theorem cacheControl_of_unknown_code {c : Int} (h0 : c ≠ 0) (h1 : c ≠ 1) (h2 : c ≠ 2) :
    cacheControl c s = .error (.invalidCacheCode c) := by
  rw [cacheControl, if_neg h0, if_neg h1, if_neg h2]

theorem exec_cache_of_unknown_code {c : Int} (h : Denotes code c) (h0 : c ≠ 0) (h1 : c ≠ 1)
    (h2 : c ≠ 2) : exec (.cache [code]) s = .next { s with fault := some (.invalidCacheCode c) } := by
  rw [exec_cache_of_denotes s h, cacheControl_of_unknown_code h0 h1 h2]
  rfl

theorem decode_cache (h : commaFree code = true) :
    decode (.text ("CACHE".toList ++ ',' :: code)) = .ok (.cache [code]) :=
  decode_one_operand (i := .cache [code]) rfl h

/-- R52, R61: the line that its own fetch filled is among the lines that code 0 or 2 clears; the events are
those of the fill, then those of the instruction. -/
theorem cache_clears_own_line (hs : Running s) (hon : s.mode = .on) (hb : inBounds s.pc s)
    (hmiss : lookup s.pc s = none) (hcomma : commaFree code = true)
    (hcell : backing s.pc s = .text ("CACHE".toList ++ ',' :: code)) :
    (Denotes code 0 → ∃ t, step s = .next t ∧ (∀ i : Nat, lineAt i t = .invalid) ∧
      t.trace = s.trace ++ [.cacheFill s.pc, .notify "Cache OFF".toList, .snapshot s.x]) ∧
    (Denotes code 2 → ∃ t, step s = .next t ∧ (∀ i : Nat, lineAt i t = .invalid) ∧
      t.trace = s.trace ++ [.cacheFill s.pc, .notify "Cache FLUSHED".toList, .snapshot s.x]) := by
  have hstep := step_eq_exec_of_miss hs hon hb hmiss (hcell ▸ decode_cache hcomma)
  constructor
  · intro h
    exact ⟨_, hstep.trans (exec_cache_off h), fun _ => rfl, List.append_assoc ..⟩
  · intro h
    exact ⟨_, hstep.trans (exec_cache_flush h), fun _ => rfl, List.append_assoc ..⟩

end Cache

/-- Settles O7: the effect of each code, one clause for each way the operand fails, and the own fetch. -/
theorem cacheFollowsItsRule : Obligations.CacheFollowsItsRule where
  decodes := fun _ => decode_cache
  codeOff := fun _ _ h => ⟨_, exec_cache_off h, fun _ => rfl, rfl⟩
  codeOn := fun _ _ => exec_cache_on
  codeFlush := fun _ _ h => ⟨_, exec_cache_flush h, fun _ => rfl, rfl⟩
  countFault := fun _ _ h => exec_cache_of_error (oneInt_of_length_ne h)
  operandFault := fun _ _ h => exec_cache_of_error (oneInt_of_noInteger h)
  codeFault := fun _ _ _ => exec_cache_of_unknown_code
  ownFetch := fun _ _ hs hon h0 hn => cache_clears_own_line hs hon ⟨h0, hn⟩

/-! ## HALT -/

section Halt

variable {ops : List Token} {s : State}

/-- R73: the sentinel written as text is HALT, as the unwritten cell is. -/
theorem decode_text_sentinel : decode (.text textSentinel) = .ok (.halt []) := rfl

/-- R141: the operands are never looked at, and nothing but the flag is written. -/
theorem exec_halt : exec (.halt ops) s = .next { s with halted := true } := rfl

/-- R150: HALTED is terminal. -/
theorem step_enterHalted_ne_next (s u : State) : step (enterHalted s) ≠ .next u := fun h => by
  obtain ⟨⟨hhalt, -⟩, -⟩ := step_cases h
  simp at hhalt

/-- R45, R141: the filled line outlives the halt, so the cell still hits, and the fill is the step's one event. -/
theorem halt_keeps_own_line (hs : Running s) (hon : s.mode = .on) (hb : inBounds s.pc s)
    (hmiss : lookup s.pc s = none) (instr : decode (backing s.pc s) = .ok (.halt ops)) :
    ∃ t, step s = .next t ∧ lookup s.pc t = some (backing s.pc s) ∧
      t = { s with halted := true, lines := t.lines, trace := s.trace ++ [.cacheFill s.pc] } :=
  ⟨_, (step_eq_exec_of_miss hs hon hb hmiss instr).trans exec_halt,
    lookup_eq_some.mpr lineAt_setLine_same, rfl⟩

end Halt

/-- Settles O8: HALT sets the flag over whatever state its fetch left. -/
theorem haltFollowsItsRule : Obligations.HaltFollowsItsRule where
  decodesSentinel := ⟨decode_int_zero, decode_text_sentinel⟩
  decodesText := fun ops h => decode_encode (i := .halt ops) (List.all_eq_true.mpr h)
  halts := fun _ _ => exec_halt
  terminal := fun s t u _ h => by
    obtain rfl := Host.Outcome.next.inj (exec_halt.symm.trans h)
    exact step_enterHalted_ne_next s u
  ownFetch := fun _ _ hs hon h0 hn => halt_keeps_own_line hs hon ⟨h0, hn⟩

end Sys2Proof.Proofs
end

section
/-! PROOFS. The run loop: when a step is enabled, what runs at the PC, where the PC goes, and how a run ends (R150 to R162, R189). -/

namespace Sys2Proof.Proofs

open Sys2Proof.Machine

/-! ## The enabled states (R150) -/

section Enabled

variable {s : State}

theorem step_of_halted (h : s.halted = true) : step s = .fault .alreadyHalted := if_pos h

theorem step_of_faulted {e : FatalError} (hhalt : s.halted = false) (hfault : s.fault = some e) :
    step s = .fault (.alreadyFaulted e) := by
  simp [step, hhalt, hfault]

theorem loadCell_of_inBounds {a : Int} (hb : inBounds a s) : ∃ c u, loadCell a s = .ok (c, u) := by
  cases h : loadCell a s with
  | ok p => exact ⟨p.1, p.2, rfl⟩
  | error e => exact absurd hb (loadCell_error h).1

/-- Each of the three ways a step goes ends in a next state. -/
theorem exists_step_of_running (hs : Running s) : ∃ t, step s = .next t := by
  by_cases hb : inBounds s.pc s
  · obtain ⟨c, u, load⟩ := loadCell_of_inBounds hb
    cases hdec : decode c with
    | error e => exact ⟨_, step_eq_of_invalidOpcode hs load hdec⟩
    | ok i =>
      obtain ⟨t, ht, -⟩ := exec_cases i u
      exact ⟨t, (step_eq_exec hs load hdec).trans ht⟩
  · exact ⟨_, step_eq_of_outside hs hb⟩

theorem running_iff_exists_step : Running s ↔ ∃ t, step s = .next t :=
  ⟨exists_step_of_running, fun ⟨_, h⟩ => (step_cases h).1⟩

end Enabled

/-- Settles O33: a RUNNING core steps on every path, and the two flags of the others name their answers. -/
theorem onlyRunningCoresStep : Obligations.OnlyRunningCoresStep := fun _ =>
  ⟨running_iff_exists_step, step_of_halted, fun _ => step_of_faulted⟩

/-! ## Runs (R162) -/

section Runs

variable {s t : State}

theorem hostRun_succ_of_next (h : step s = .next t) (n : Nat) :
    hostRun (n + 1) s = hostRun n t := by
  rw [hostRun, h]

/-- R189: where no step is enabled a run of any length does nothing. -/
theorem hostRun_of_not_running (h : ¬ Running s) : ∀ n, hostRun n s = s
  | 0 => rfl
  | n + 1 => by
    cases hstep : step s with
    | next t => exact absurd (step_cases hstep).1 h
    | fault r => rw [hostRun, hstep]
    | refused r => rw [hostRun, hstep]

/-- A run in two parts is one run. -/
theorem hostRun_add (k m : Nat) (s : State) : hostRun (k + m) s = hostRun m (hostRun k s) := by
  induction k generalizing s with
  | zero => rw [Nat.zero_add, hostRun]
  | succ k ih =>
    by_cases hs : Running s
    · obtain ⟨t, ht⟩ := exists_step_of_running hs
      rw [Nat.succ_add, hostRun_succ_of_next ht, hostRun_succ_of_next ht, ih]
    · simp only [hostRun_of_not_running hs]

end Runs

/-- Settles O34: the rest of the run starts from a state with no step. -/
theorem terminalStatesAreFinal : Obligations.TerminalStatesAreFinal := fun s k m h =>
  (hostRun_add k m s).trans (hostRun_of_not_running h m)

/-! ## Fetch and dispatch (R152, R156, R161) -/

/-- Settles O28: `step_eq_exec`, which needs no bound beyond the load's own success. -/
theorem stepRunsTheDecodedInstruction : Obligations.StepRunsTheDecodedInstruction :=
  fun _ _ _ _ hs _ _ => step_eq_exec hs

/-- Settles O31: the opcode map refuses what is outside the vocabulary, and the step raises over the load's
state. -/
theorem stepRaisesInvalidOpcode : Obligations.StepRaisesInvalidOpcode :=
  fun _ _ _ hs _ _ load hinvalid =>
    step_eq_of_invalidOpcode hs load (classify_of_not_mem_vocabulary (of_decide_eq_false hinvalid))

/-- Settles O32: the fetch fails before any load. -/
theorem stepOutsideMemoryFaults : Obligations.StepOutsideMemoryFaults :=
  fun _ => step_eq_of_outside

/-- Settles O29: in OFF mode the load leaves the state alone, the record decodes to ADD, and ADD follows its
rule. -/
theorem addRecordTakesItsStep : Obligations.AddRecordTakesItsStep := by
  intro s d a b hs h0 hn hoff hcell
  have hdec : decode (backing s.pc s) = .ok (.add [regName d, regName a, regName b]) := by
    rw [hcell]
    exact addFollowsItsRule.decodes _ _ _ (commaFree_regName d) (commaFree_regName a)
      (commaFree_regName b)
  rw [step_eq_exec hs (loadCell_of_off ⟨h0, hn⟩ hoff) hdec]
  exact addFollowsItsRule.result s d a b

/-! ## The PC after a step (R159) -/

theorem loadCell_pc {a : Int} {c : Cell} {s t : State} (h : loadCell a s = .ok (c, t)) :
    t.pc = s.pc := by
  rw [loadCell_frame h]

/-- R159, R120, R141: what halts or raises leaves the PC, J alone redirects it, and the rest advance it. -/
theorem pc_of_execCase {i : Instr} {s t : State} (h : ExecCase i s t) (hs : Running s) :
    ((t.halted = true ∨ t.fault ≠ none) ∧ t.pc = s.pc) ∨
      (t.halted = false ∧ t.fault = none ∧
        (((∀ ops, i ≠ .j ops) ∧ t.pc = s.pc + 1) ∨
          ∃ target n, i = .j [target] ∧ Denotes target n ∧ t.pc = n * 4)) := by
  obtain ⟨hhalt, hfault⟩ := hs
  cases h with
  | raised e => exact .inl ⟨.inr (by simp), rfl⟩
  | wrote d v rest operands opcode =>
    have hnotJ : ∀ ops, i ≠ .j ops := by rintro ops rfl; simp at opcode
    exact .inr ⟨hhalt, hfault, .inl ⟨hnotJ, rfl⟩⟩
  | jumped target n opcode value =>
    exact .inr ⟨hhalt, hfault, .inr ⟨target, n, opcode, denotes_of_parseInt value, rfl⟩⟩
  | controlled code c u opcode value effect =>
    obtain ⟨text, hu⟩ := cacheControl_frame effect
    have hnotJ : ∀ ops, i ≠ .j ops := by simp [opcode]
    rw [hu]
    exact .inr ⟨hhalt, hfault, .inl ⟨hnotJ, rfl⟩⟩
  | halted ops opcode => exact .inl ⟨.inl rfl, rfl⟩

/-- Settles O38: the load keeps the PC, and so does a raise of the run loop; the rest is the instruction's. -/
theorem programCounterAfterStep : Obligations.ProgramCounterAfterStep := by
  intro s t h
  obtain ⟨hs, hcase⟩ := step_cases h
  cases hcase with
  | unfetched outside => exact .inl ⟨.inr (by simp), rfl⟩
  | undecoded c u op load opcode =>
    have hpc : u.pc = s.pc := loadCell_pc load
    exact .inl ⟨.inr (by simp), hpc⟩
  | executed c u t i load instr effect =>
    have hpc := pc_of_execCase (execCase_of_next effect) (loadCell_running load hs)
    rw [loadCell_pc load] at hpc
    exact hpc.imp_right fun ⟨hhalt, hfault, hgoes⟩ => ⟨hhalt, hfault, c, u, i, load, instr, hgoes⟩

end Sys2Proof.Proofs
end

section
/-! PROOFS. Exceptions: what a step that raises keeps, and what a host move that raises does to a core with and without a fault (R46, R170, R172, R173). -/

namespace Sys2Proof.Proofs

open Sys2Proof.Machine

/-! ## A step that raises (R173) -/

section Raise

variable {s t : State} {e : FatalError}

/-- R158: an instruction that leaves a fault raised before it had any effect. -/
theorem eq_raise_of_execCase {i : Instr} (h : ExecCase i s t) (hs : s.fault = none)
    (ht : t.fault = some e) : t = raise e s := by
  have unset {u : State} (hu : u.fault = s.fault) : u.fault ≠ some e := by simp [hu, hs]
  cases h with
  | raised e' =>
    obtain rfl : e' = e := by simpa using ht
    rfl
  | wrote d v rest operands opcode => exact absurd ht (unset rfl)
  | jumped target n opcode value => exact absurd ht (unset rfl)
  | controlled code c u opcode value effect =>
    obtain ⟨text, hu⟩ := cacheControl_frame effect
    exact absurd ht (unset (by rw [hu]; rfl))
  | halted ops opcode => exact absurd ht (unset rfl)

/-- R152, R153: a step raises over the state before it, at a PC outside memory, or over the one its load
left. -/
theorem eq_raise_of_step (h : step s = .next t) (ht : t.fault = some e) :
    (¬ inBounds s.pc s ∧ t = raise e s) ∨
      ∃ c u, loadCell s.pc s = .ok (c, u) ∧ t = raise e u := by
  obtain ⟨hs, hcase⟩ := step_cases h
  cases hcase with
  | unfetched outside =>
    obtain rfl : .programCounterOutOfBounds s.pc = e := by simpa using ht
    exact .inl ⟨outside, rfl⟩
  | undecoded c u op load opcode =>
    obtain rfl : .invalidOpcode op = e := by simpa using ht
    exact .inr ⟨c, u, load, rfl⟩
  | executed c u t i load instr effect =>
    exact .inr ⟨c, u, load,
      eq_raise_of_execCase (execCase_of_next effect) (loadCell_running load hs).2 ht⟩

/-- A raise over the state a load left differs from the state before in fault, lines and trace alone. -/
theorem raise_of_loadCell_frame {a : Int} {c : Cell} {u : State} (load : loadCell a s = .ok (c, u)) :
    raise e u = { s with fault := some e, lines := u.lines, trace := u.trace } :=
  congrArg (raise e) (loadCell_frame load)

end Raise

/-- Settles O37: the step is a raise over the state before it or over the one its load left. -/
theorem faultsArePrecise : Obligations.FaultsArePrecise := by
  intro s t e h ht
  obtain ⟨outside, rfl⟩ | ⟨c, u, load, rfl⟩ := eq_raise_of_step h ht
  · exact ⟨rfl, .inl ⟨outside, rfl, rfl⟩, step_raise_ne_next e s⟩
  · exact ⟨raise_of_loadCell_frame load, .inr ⟨c, u, load, rfl, rfl⟩, step_raise_ne_next e u⟩

/-! ## A host move that raises (R46, R172, R192) -/

section HostMoves

variable {a : Int} {s : State}

theorem hostLoad_of_outside (hb : ¬ inBounds a s) :
    hostLoad a s = (.error (.outOfBounds a), hostRaise (.outOfBounds a) s) := by
  rw [hostLoad, loadCell_of_outside hb]

theorem hostStore_of_outside {v : Cell} (hb : ¬ inBounds a s) :
    hostStore a v s = (.error (.outOfBounds a), hostRaise (.outOfBounds a) s) := by
  rw [hostStore, storeCell_of_outside hb]

theorem loadProgram_of_tooLarge {r : List Cell} (h : s.cfg.memCapacity < r.length) :
    loadProgram r s =
      (.error (.programTooLarge r.length), hostRaise (.programTooLarge r.length) s) :=
  if_pos h

end HostMoves

/-- Settles O26: the call raises, and on a core that holds no fault the raise sets the field. -/
theorem hostCallOutsideMemoryFaults : Obligations.HostCallOutsideMemoryFaults := by
  intro a v s hs hb
  rw [hostLoad_of_outside hb, hostStore_of_outside hb, hostRaise_of_none hs]
  exact ⟨rfl, rfl, step_raise_ne_next _ s⟩

/-- Settles O51: the raise leaves the fault that stands, and a core with a fault is not RUNNING. -/
theorem faultedCoreKeepsItsFault : Obligations.FaultedCoreKeepsItsFault := by
  intro a v r e s hs
  have hstopped : ¬ Running s := fun ⟨_, hnone⟩ => by simp [hs] at hnone
  refine ⟨fun hb => ?_, fun hlarge => ?_, hostRun_of_not_running hstopped⟩
  · rw [hostLoad_of_outside hb, hostStore_of_outside hb, hostRaise_of_some hs]
    exact ⟨rfl, rfl⟩
  · rw [loadProgram_of_tooLarge hlarge, hostRaise_of_some hs]

end Sys2Proof.Proofs
end

section
/-! PROOFS. The program loader (R192): what each cell holds after the records are written, and the refusal of too many of them. -/

namespace Sys2Proof.Proofs

open Sys2Proof.Machine

/-! ## Records written at consecutive addresses -/

section WriteCells

variable {r : List Cell} {m : List (Nat × Cell)} {a b i : Nat}

/-- No cell but those from `a` to `a + r.length - 1` is touched. -/
theorem sparseGet_writeCells_outside (hm : m.Pairwise (fun p q => p.1 < q.1))
    (hb : b < a ∨ a + r.length ≤ b) :
    sparseGet (.int 0) (writeCells a r m) b = sparseGet (.int 0) m b := by
  induction r generalizing a m with
  | nil => rfl
  | cons c cs ih =>
    rw [List.length_cons] at hb
    exact (ih (sparseSet_pairwise hm) (by omega)).trans (sparseGet_sparseSet_other hm (by omega))

/-- Each record lands in its own cell and no later record overwrites it. -/
theorem sparseGet_writeCells_inside (hm : m.Pairwise (fun p q => p.1 < q.1)) (hi : i < r.length) :
    sparseGet (.int 0) (writeCells a r m) (a + i) = r[i] := by
  induction r generalizing a m i with
  | nil => exact absurd hi (Nat.not_lt_zero i)
  | cons c cs ih =>
    have hsorted := sparseSet_pairwise (d := .int 0) (a := a) (v := c) hm
    cases i with
    | zero => exact (sparseGet_writeCells_outside hsorted (by omega)).trans (sparseGet_sparseSet_same hm)
    | succ j =>
      rw [← Nat.succ_add_eq_add_succ]
      exact ih hsorted (Nat.lt_of_succ_lt_succ hi)

end WriteCells

/-! ## The move `load_program` -/

theorem loadProgram_of_fits {r : List Cell} {s : State} (h : r.length ≤ s.cfg.memCapacity) :
    loadProgram r s = (.ok (), { s with mem := writeCells 0 r s.mem }) :=
  if_neg (Nat.not_lt.mpr h)

/-- Settles O25: too many records raise before any is written; where they fit, each key of the new
memory is one of a record or none of them. -/
theorem loadProgramFollowsItsRule : Obligations.LoadProgramFollowsItsRule := by
  intro r s ⟨hsorted, _⟩
  refine ⟨fun hlarge hnone => ?_, fun hfits => ?_⟩
  · rw [loadProgram_of_tooLarge hlarge, hostRaise_of_none hnone]
  · rw [loadProgram_of_fits hfits]
    refine ⟨rfl, fun i hi => ?_, fun a ha => sparseGet_writeCells_outside hsorted (by omega)⟩
    have hrecord := sparseGet_writeCells_inside (a := 0) hsorted hi
    rwa [Nat.zero_add] at hrecord

end Sys2Proof.Proofs
end

section
/-! PROOFS. The host between steps: the word it places at the PC (R47, R60, R161), and no stopped core both halted and faulted (R35). -/

namespace Sys2Proof.Proofs

open Sys2Proof.Machine

/-! ## The placed word -/

section PlacedWord

variable {nbits w : Nat} {i : Instr} {s t : State}

theorem decodeTableWord_eq_some_iff :
    decodeTableWord nbits w = some i ↔ decode (cellOfTableWord nbits w) = .ok i := by
  unfold decodeTableWord
  cases decode (cellOfTableWord nbits w) <;> simp

theorem withFetchWord_of_storeCell (h : storeCell s.pc (cellOfTableWord nbits w) s = .ok t) :
    s.withFetchWord nbits w = t := by
  rw [State.withFetchWord, h]

theorem storeCell_pc {a : Int} {v : Cell} (h : storeCell a v s = .ok t) : t.pc = s.pc := by
  rw [storeCell_frame h]

theorem storeCell_running {a : Int} {v : Cell} (h : storeCell a v s = .ok t) (hs : Running s) :
    Running t := by
  rw [storeCell_frame h]; exact hs

end PlacedWord

/-- Settles O30: placing the word is a store at the PC, which the fetch reads back in either mode and
which stops no core, so the step dispatches the decoded instruction. -/
theorem placedWordIsFetched : Obligations.PlacedWordIsFetched := by
  rintro s nbits w i hs ⟨hsorted, -⟩ h0 hn hdecode
  obtain ⟨p, hstore⟩ := storeCell_of_inBounds (v := cellOfTableWord nbits w) ⟨h0, hn⟩
  obtain ⟨u, hload⟩ := loadCell_of_storeCell hsorted hstore
  rw [← storeCell_pc hstore] at hload
  rw [withFetchWord_of_storeCell hstore]
  exact ⟨u, (fetch_of_inBounds (loadCell_ok hload).1).trans hload,
    step_eq_exec (storeCell_running hstore hs) hload (decodeTableWord_eq_some_iff.mp hdecode)⟩

/-! ## Reachable states that have stopped -/

/-- Leaving out the calls that raise on a HALTED core leaves out states, and adds none. -/
theorem reachable_of_beforeLateRaise {s : State} (h : ReachableBeforeLateRaise s) : Reachable s := by
  induction h with
  | boot c r hc => exact .boot c r hc
  | step _ e ih => exact .step ih e
  | load a _ _ ih => exact .load a ih
  | store a v _ _ ih => exact .store a v ih

/-- Settles O49: loading halts no core, a step starts from a state that meets the invariant, and each
call of the interface keeps the exclusion. -/
theorem terminalStatesAreExclusive : Obligations.TerminalStatesAreExclusive := by
  intro s h
  induction h with
  | boot c r hc => exact (loadedCoreMeetsTheInvariant c r hc).2
  | step hr e _ =>
    have hinv := inv_of_reachable (reachable_of_beforeLateRaise hr)
    exact (stepKeepsTheInvariant _ _ hinv e).2
  | load a _ hn ih => exact hostLoad_keeps_exclusive hn ih
  | store a v _ hn ih => exact hostStore_keeps_exclusive hn ih

end Sys2Proof.Proofs
end
